-- ==== Sys2Proof/Word.lean ====
section
/-! DEFINITION. The plain values of the decoder block: line levels, classifications, directions, times, and
the two record types it builds, Parcel and Packet (spec/00_scope.md R8, R13; spec/10_state.md R24 to R26). -/

namespace Sys2Proof

/-- A line level, one bit: `low` is 0 and `high` is 1 (R8, R22, R23). -/
inductive Level
  | low
  | high
  deriving DecidableEq, Repr

/-- The two monitored lines (R13). -/
inductive Line
  | clk
  | dat
  deriving DecidableEq, Repr

/-- `Class` of R13: how one event changed one line. -/
inductive EdgeClass
  | rising
  | falling
  | steady
  deriving DecidableEq, Repr

/-- `Dir` of R13: WRITE is master to participant, READ is participant to master. -/
inductive Dir
  | write
  | read
  deriving DecidableEq, Repr

/-- `Emission` of R13: the role of a completed accumulator. -/
inductive Emission
  | none
  | addr
  | dir
  | data
  | ack
  deriving DecidableEq, Repr

/-- A 7-bit participant address (R8, R24). -/
abbrev Address := BitVec 7

/-- A data byte (R8, R24). -/
abbrev Byte := BitVec 8

/-- A Parcel (R24): one address, direction and data burst. `none` is "unset" (D10). -/
structure Parcel where
  address   : Option Address
  direction : Option Dir
  data      : List Byte
  deriving DecidableEq, Repr

/-- A new Parcel: address and direction unset, no data (R24). -/
def Parcel.empty : Parcel := { address := none, direction := none, data := [] }

/-- A closed Packet, as held in history (R25). Its timestamp is a time difference, which is negative for a time before the
epoch while `TS_W = ∞` (R158); event times and the epoch are unsigned, `Nat` (R75, R84). That `parcels` is not empty is an invariant (R174). -/
structure Packet where
  timestamp : Int
  parcels   : List Parcel
  deriving DecidableEq, Repr

/-- The Packet being built (R26). Its timestamp is always absent, so it is no field: see
`PacketInProgress.timestamp`. -/
structure PacketInProgress where
  parcels : List Parcel
  deriving DecidableEq, Repr

/-- A new PacketInProgress (R26). -/
def PacketInProgress.empty : PacketInProgress := { parcels := [] }

/-- The timestamp of a Packet in progress is absent until STOP (R26, D23). -/
def PacketInProgress.timestamp (_ : PacketInProgress) : Option Int := none

/-- The open transaction: the in-progress Packet and the in-progress Parcel, which are present together or
absent together (R30). One field for the two makes the other states unrepresentable, as D30 asks. -/
structure OpenTxn where
  pkt : PacketInProgress
  par : Parcel
  deriving DecidableEq, Repr

/-- The status of a query result (R82). -/
inductive QueryStatus
  | found
  | emptyHistory
  | insufficientHistory
  | notFound
  deriving DecidableEq, Repr

/-- A query result record (R82). -/
structure QueryResult where
  status : QueryStatus
  packet : Option Packet
  deriving DecidableEq, Repr

/-- A packet-output record (R83). -/
structure OutRecord where
  packet : Packet
  deriving DecidableEq, Repr

end Sys2Proof
end

