-- ==== Sys2Proof/Config.lean ====
section
/-! DEFINITION. The implementation parameters (spec/00_scope.md R9): a plain record that a built block carries
unchanged, and the two values the spec leaves wholly open, as constants with no body. -/

namespace Sys2Proof

/-- `HIST_OVERFLOW` (R9, D14): what happens when a finite `HIST_CAP` is reached. -/
inductive HistOverflow
  | fault
  | evictOldest
  deriving DecidableEq, Repr

/-- A predicate that an entry of `PRED` may be fixed to, written as data. The first four are the ones the spec's
own test vectors name (spec/95_test_vectors.md, program P5). A predicate outside this list is an index with no
entry, whose predicate is `Config.pred`. DESIGN CHOICE, safe: notes/assumptions/5.md. -/
inductive PredSpec
  | isWrite
  | isRead
  | firstAddressIs (a : Address)
  | always (b : Bool)
  deriving DecidableEq, Repr

/-- The parameters of R9. `none` is the default `∞` for a width or a capacity. They are fixed when the block is built
(R31) and are arguments of the step (R39): no step writes them. -/
structure Params where
  /-- `TS_W`, the width of a time value. -/
  tsW          : Option Nat
  /-- `MAX_DATA`, the most data bytes of a Parcel. -/
  maxData      : Option Nat
  /-- `MAX_PARCELS`, the most Parcels of a Packet. -/
  maxParcels   : Option Nat
  /-- `HIST_CAP`, the most Packets of the History Buffer. -/
  histCap      : Option Nat
  /-- `HIST_OVERFLOW`, read only where `histCap` is finite. -/
  histOverflow : HistOverflow
  /-- `PRED_W`, the width of a predicate index; `none` admits every index. -/
  predW        : Option Nat
  /-- The entries of `PRED` that are fixed as data; every other index is `Config.pred`. -/
  preds        : List (Nat × PredSpec)
  deriving DecidableEq, Repr

/-- The defaults of R9. `HIST_OVERFLOW` is unused while `HIST_CAP = ∞`; `PRED_W` and `PRED` are OPEN in R9: every index
is admitted and names an unconstrained predicate. DESIGN CHOICE: notes/assumptions/4.md and 5.md. -/
def Params.default : Params :=
  { tsW := none, maxData := none, maxParcels := none, histCap := none, histOverflow := .fault,
    predW := none, preds := [] }

/-- A value that fits a width in bits; every value fits the width `∞`. -/
def fitsWidth (w : Option Nat) (v : Nat) : Bool :=
  match w with
  | none => true
  | some k => decide (v < 2 ^ k)

/-- `PRED` (R9, R81, D21) for an index with no entry in `Params.preds`: a total function from the index to a pure predicate,
OPEN in the spec, so a free value with no body. -/
opaque Config.pred : Nat → Packet → Bool

/-- `TICK` (R9, D13): the real duration of one time unit, in seconds. OPEN in the spec, and no rule reads it. -/
opaque Config.tick : Rat

end Sys2Proof
end

