-- ==== Sys2Proof/Syntax.lean ====
section
/-! DEFINITION. The instructions of the decoder block: the four event instructions and the three query instructions of
spec/opcode_table.json, and the words that arrive on its input ports (spec/30_encoding.md R70, R72, R78, R84). -/

namespace Sys2Proof

/-- One constructor per row of spec/opcode_table.json. -/
inductive Instr
  /-- `CLK_LO` (R113): the clock line reports level 0. -/
  | clkLo (time : Nat)
  /-- `CLK_HI` (R114): the clock line reports level 1. -/
  | clkHi (time : Nat)
  /-- `DAT_LO` (R115): the data line reports level 0. -/
  | datLo (time : Nat)
  /-- `DAT_HI` (R116): the data line reports level 1. -/
  | datHi (time : Nat)
  /-- `Q_LATEST` (R191). -/
  | qLatest
  /-- `Q_SECOND_LATEST` (R192). -/
  | qSecondLatest
  /-- `Q_FIND` (R193) with its predicate index. -/
  | qFind (pidx : Nat)
  deriving DecidableEq, Repr

/-- What the environment drives on one input port. The two word ports number their words alike, so the port is part of the
input: event word 0 is `CLK_LO` and query word 0 is `Q_LATEST` (R76, R79). -/
inductive PortWord
  /-- An event word on the event port (R72). -/
  | event (w : Nat)
  /-- A query word on the query port (R78). -/
  | query (q : Nat)
  /-- The reset input with its operand, the epoch (R84, R230). -/
  | reset (epoch : Nat)
  /-- The environment attaches the Observer (R233, step 2). -/
  | attach
  deriving DecidableEq, Repr

/-- What an input asks of the block once decoded. -/
inductive Command
  | instr (i : Instr)
  | reset (epoch : Nat)
  | attach
  deriving DecidableEq, Repr

/-- Whether an instruction is one of the three queries. -/
def Instr.isQuery : Instr → Bool
  | .clkLo _ => false
  | .clkHi _ => false
  | .datLo _ => false
  | .datHi _ => false
  | .qLatest => true
  | .qSecondLatest => true
  | .qFind _ => true

end Sys2Proof
end

