-- ==== Sys2Proof/WellFormed.lean ====
section
/-! DEFINITION. The checks of a term before it is a word of the block: operands fit the widths the parameters give (spec/30_encoding.md
R72, R78, R84), and a parameter set the spec admits (spec/45_history.md R199). -/

namespace Sys2Proof

/-- The parameter sets the spec admits: a finite `HIST_CAP` is at least 2 (R199). -/
def Params.wf (p : Params) : Bool :=
  match p.histCap with
  | none => true
  | some c => decide (2 ≤ c)

/-- An instruction whose operands fit: an event's time is a `TS_W`-bit value (R72) and a predicate index a
`PRED_W`-bit value (R78). -/
def Instr.wellFormed (p : Params) : Instr → Bool
  | .clkLo t => fitsWidth p.tsW t
  | .clkHi t => fitsWidth p.tsW t
  | .datLo t => fitsWidth p.tsW t
  | .datHi t => fitsWidth p.tsW t
  | .qLatest => true
  | .qSecondLatest => true
  | .qFind pidx => fitsWidth p.predW pidx

/-- An input that is a value of its port: an event word has `2 + TS_W` bits (R72), a query word `2 + PRED_W`
bits (R78), the reset operand `TS_W` bits (R84). -/
def PortWord.fits (p : Params) : PortWord → Bool
  | .event w => fitsWidth (p.tsW.map (2 + ·)) w
  | .query q => fitsWidth (p.predW.map (2 + ·)) q
  | .reset e => fitsWidth p.tsW e
  | .attach => true

end Sys2Proof
end

