-- ==== Sys2Proof/Decode.lean ====
section
/-! DEFINITION. Decoding the words of the input ports, total and rejecting by name, then encoding (spec/30_encoding.md R72 to R85). -/

namespace Sys2Proof

/-- Why a number on a port is no instruction. -/
inductive DecodeError
  /-- A query word the spec reserves (R80). -/
  | reservedQuery
  /-- A number with more bits than the words of its port have (R72, R78, R84). -/
  | notAPortWord
  deriving DecidableEq, Repr

/-- `v[i]` (R10), one bit of a number. -/
def bitAt (v i : Nat) : Nat := v / 2 ^ i % 2

/-- `v[hi:lo]` (R10) for a field that reaches the top of the word. -/
def fieldFrom (v lo : Nat) : Nat := v / 2 ^ lo

/-- The `line` field, `w[0]`: 0 is the clock line, 1 the data line (R73). -/
def eventLine (w : Nat) : Line := if bitAt w 0 = 0 then .clk else .dat

/-- The `level` field, `w[1]` (R72, R74). -/
def eventLevel (w : Nat) : Level := if bitAt w 1 = 0 then .low else .high

/-- The `time` field, `w[TS_W+1:2]`, unsigned (R75, R85). -/
def eventTime (w : Nat) : Nat := fieldFrom w 2

/-- The `op` field of a query word, `q[1:0]` (R78). -/
def queryOp (q : Nat) : Nat := q % 4

/-- The `pidx` field of a query word, `q[PRED_W+1:2]` (R78, R85). -/
def queryIndex (q : Nat) : Nat := fieldFrom q 2

/-- The event instruction of a line, a level and a time (R76). -/
def eventInstr (line : Line) (level : Level) (time : Nat) : Instr :=
  match line, level with
  | .clk, .low => .clkLo time
  | .clk, .high => .clkHi time
  | .dat, .low => .datLo time
  | .dat, .high => .datHi time

/-- The event opcode map (R76): every event word is legal (R77). -/
def decodeEvent (p : Params) (w : Nat) : Except DecodeError Instr :=
  if fitsWidth p.tsW (eventTime w) then
    .ok (eventInstr (eventLine w) (eventLevel w) (eventTime w))
  else .error .notAPortWord

/-- The query opcode map (R79) with its reserved words (R80). -/
def decodeQuery (p : Params) (q : Nat) : Except DecodeError Instr :=
  if fitsWidth p.predW (queryIndex q) then
    match queryOp q with
    | 0 => if queryIndex q = 0 then .ok .qLatest else .error .reservedQuery
    | 1 => if queryIndex q = 0 then .ok .qSecondLatest else .error .reservedQuery
    | 2 => .ok (.qFind (queryIndex q))
    | _ => .error .reservedQuery
  else .error .notAPortWord

/-- Decoding what stands on an input port. -/
def decodeInput (p : Params) : PortWord → Except DecodeError Command
  | .event w => (decodeEvent p w).map .instr
  | .query q => (decodeQuery p q).map .instr
  | .reset e => if fitsWidth p.tsW e then .ok (.reset e) else .error .notAPortWord
  | .attach => .ok .attach

/-- The code of a line in an event word (R73). -/
def lineCode : Line → Nat
  | .clk => 0
  | .dat => 1

/-- The code of a level (R72). -/
def levelCode : Level → Nat
  | .low => 0
  | .high => 1

/-- The event word of its fields, `time×4 + level×2 + line` (R72). -/
def eventWord (line : Line) (level : Level) (time : Nat) : Nat :=
  time * 4 + levelCode level * 2 + lineCode line

/-- The query word of its fields (R78). -/
def queryWord (op pidx : Nat) : Nat := pidx * 4 + op

/-- The word of an instruction, with the port it is driven on (R76, R79). -/
def encode : Instr → PortWord
  | .clkLo t => .event (eventWord .clk .low t)
  | .clkHi t => .event (eventWord .clk .high t)
  | .datLo t => .event (eventWord .dat .low t)
  | .datHi t => .event (eventWord .dat .high t)
  | .qLatest => .query (queryWord 0 0)
  | .qSecondLatest => .query (queryWord 1 0)
  | .qFind pidx => .query (queryWord 2 pidx)

/-- The instruction of a word numbered as spec/opcode_table.json numbers it. The table gives the words of both word ports
from 0 on and no bit of a word tells the ports apart, so a table word is read on the EVENT port; the query
rows' words are read on the query port by `decodeQuery`. DESIGN CHOICE: notes/assumptions/2.md. -/
def decodeTableWord (nbits w : Nat) : Option Instr :=
  match decodeEvent Params.default (w % 2 ^ nbits) with
  | .ok i => some i
  | .error _ => none

end Sys2Proof
end

