-- ==== Sys2Proof/Machine/State.lean ====
section
/-! DEFINITION. The decoder state (spec/10_state.md R20), what its ports have carried, and the reasons a step can stop. -/

namespace Sys2Proof.Machine

/-- What a finite capacity bounds (spec/60_exceptions.md R216). -/
inductive Resource
  | data
  | parcels
  | history
  deriving DecidableEq, Repr

/-- The faults of R216. With every capacity at its default `∞` none can occur. -/
inductive Fault
  /-- Raised by bit sampling (`data`, R143), by START and STOP (`parcels`, R163) and by `HistAppend` (`history`, R52) when a
  finite capacity is reached. Safe: the machine stops where a block without that limit would go on. -/
  | capacityExceeded (r : Resource)
  deriving DecidableEq, Repr

/-- The refusals: what stands on a port is no instruction of the block. -/
inductive Refusal
  /-- An instruction with no meaning yet; no arm raises it. Safe. -/
  | notModelled (mnemonic : String)
  /-- `Refused(ReservedQuery)` of R216, raised by the query port for a reserved query word (R80). Safe: the block gives
  it no meaning and its state is unchanged. -/
  | reservedQuery
  /-- Raised by a port given a number with more bits than its words have: no value of that port (R72, R78, R84).
  Safe: such an input cannot be driven. -/
  | notAPortWord
  deriving DecidableEq, Repr

/-- The state. The first block is the decoder state of R20; `txn` holds its `pkt` and `par`, present together
or absent together (R30, D30). The second block is what the step takes as arguments (R39) and what
the ports carry: the parameters, the inputs not yet taken, the Observer and the records output (R240). -/
structure State where
  /-- `clk`: the recorded level of the clock line (R22). -/
  clk      : Level
  /-- `dat`: the recorded level of the data line (R23). -/
  dat      : Level
  /-- `pkt` and `par`: the in-progress Packet and Parcel (R20, R26, R24). -/
  txn      : Option OpenTxn
  /-- `acc`: the bit accumulator (R27). -/
  acc      : Nat
  /-- `n`: the bit count of the current parcel (R28). -/
  n        : Nat
  /-- `epoch`: the fixed time origin (R32). -/
  epoch    : Nat
  /-- `hist`: the History Buffer, oldest first (R33). -/
  hist     : List Packet
  /-- The parameter set of the block as built (R9, R31). -/
  params   : Params
  /-- The inputs the environment has queued and the block has not taken, the next one first (R62). -/
  pending  : List PortWord
  /-- Whether an Observer is attached (R196, R233). -/
  observer : Bool
  /-- The packet outputs made since reset, oldest first (R214, R240). -/
  outputs  : List OutRecord
  /-- The packet outputs the Observer received; one made with no Observer is dropped (R196). -/
  observed : List OutRecord
  /-- The query results given since reset, oldest first (R82, R240). -/
  results  : List QueryResult
  deriving DecidableEq, Repr

/-- `s.pkt` of R20. -/
def State.pkt (s : State) : Option PacketInProgress := s.txn.map OpenTxn.pkt

/-- `s.par` of R20. -/
def State.par (s : State) : Option Parcel := s.txn.map OpenTxn.par

/-- The state right after reset (R38, R230), with every parameter at its default (R9). The epoch comes from the reset
input; here it is 0, what a program without an `.epoch` directive gives (R89): notes/assumptions/3.md.
No input is queued and no Observer is attached: notes/assumptions/6.md. -/
def State.reset : State :=
  { clk := .high, dat := .high, txn := none, acc := 0, n := 0, epoch := 0, hist := [],
    params := Params.default, pending := [], observer := false, outputs := [], observed := [],
    results := [] }

end Sys2Proof.Machine
end

