-- ==== Sys2Proof/Machine/Flags.lean ====
section
/-! DEFINITION. The conditions that act as the block's flags (spec/10_state.md R29) and the states of the parcel/packet
state machine they select (spec/43_start_stop.md R164). -/

namespace Sys2Proof.Machine

/-- `parcel_open(s)` (R29): gates bit sampling and STOP. -/
def parcelOpen (s : State) : Bool := s.par.isSome

/-- `packet_open(s)` (R29): selects between starting a Packet and closing a Parcel at START. -/
def packetOpen (s : State) : Bool := s.pkt.isSome

/-- A sequence of the given length holds as many elements as its capacity admits (R52, R143, R163); the capacity `∞` is
never reached. -/
def atCapacity (cap : Option Nat) (len : Nat) : Bool :=
  match cap with
  | none => false
  | some c => decide (len = c)

/-- The states of R164. -/
inductive MachinePhase
  | idle
  | opened
  deriving DecidableEq, Repr

/-- The state of R164 that a decoder state is in. -/
def machinePhase (s : State) : MachinePhase := if packetOpen s then .opened else .idle

end Sys2Proof.Machine
end

