-- ==== Sys2Proof/Machine/Operands.lean ====
section
/-! DEFINITION. The values an action assembles from its operands: the shifted accumulator, the latched fields and the
timestamp (spec/30_encoding.md R85, R86; spec/42_bit_sampling.md R131 to R135; spec/43_start_stop.md R158). -/

namespace Sys2Proof.Machine

/-- A level as the bit that is shifted in. -/
def levelBit : Level → Nat
  | .low => 0
  | .high => 1

/-- `acc×2 + dat` (R131): the first bit sampled ends as the most significant (R54). -/
def shiftIn (acc : Nat) (d : Level) : Nat := acc * 2 + levelBit d

/-- The address latched at bit 7 (R133). An accumulator of seven bits loses nothing here (R139);
notes/assumptions/8.md. -/
def latchAddress (acc : Nat) : Address := BitVec.ofNat 7 acc

/-- The direction latched at bit 8: WRITE if the accumulator is 0, else READ (R134). -/
def latchDirection (acc : Nat) : Dir := if acc = 0 then .write else .read

/-- The byte appended at the end of a data group (R135). An accumulator of eight bits loses nothing here (R139). -/
def latchByte (acc : Nat) : Byte := BitVec.ofNat 8 acc

/-- `t − epoch` (R158): exact with `TS_W = ∞`, the non-negative residue modulo `2^TS_W` with a finite width. -/
def timeDiff (w : Option Nat) (t epoch : Nat) : Int :=
  match w with
  | none => (t : Int) - (epoch : Int)
  | some k => ((t : Int) - (epoch : Int)) % ((2 ^ k : Nat) : Int)

end Sys2Proof.Machine
end

