-- ==== Sys2Proof/Machine/Ops.lean ====
section
/-! DEFINITION. The shared operations on the state: the line registers, the History Buffer's two primitives (spec/20_memory.md
R52, R53), the two output ports and the reset input. The block takes no exception and returns from none (spec/60_exceptions.md
R210, R217): what stops a step is a model-level fault of R216. -/

namespace Sys2Proof.Machine

/-- The outcome of a step or of a part of one. -/
abbrev Result := Host.Outcome State Fault Refusal

/-- The rest of an action after a part of it: a fault or a refusal stops the action. -/
def andThen (r : Result) (f : State → Result) : Result :=
  match r with
  | .next s => f s
  | .fault e => .fault e
  | .refused e => .refused e

/-- `raise Fault(CapacityExceeded(r))` (R12, R216). -/
def capacityFault (r : Resource) : Result := .fault (.capacityExceeded r)

/-- The recorded level of a line (R22, R23). -/
def recordedLevel (s : State) : Line → Level
  | .clk => s.clk
  | .dat => s.dat

/-- The classifier's side effect: record a level in the register of the line an event names (R101). -/
def recordLevel (line : Line) (level : Level) (s : State) : State :=
  match line with
  | .clk => { s with clk := level }
  | .dat => { s with dat := level }

/-- `HistAppend(p)`, the write primitive (R52). -/
def histAppend (p : Packet) (s : State) : Result :=
  if atCapacity s.params.histCap s.hist.length then
    match s.params.histOverflow with
    | .fault => capacityFault .history
    | .evictOldest => .next { s with hist := s.hist.tail ++ [p] }
  else .next { s with hist := s.hist ++ [p] }

/-- `HistAt(i)`, the read primitive: position `i`, 0 the oldest, defined below the length (R53). -/
def histAt (hist : List Packet) (i : Nat) : Option Packet := hist[i]?

/-- `emit Out({packet = p})` (R157, R214): one record on the packet-output port. The Observer receives it if one is
attached, and otherwise it is dropped (R196). -/
def emitOut (p : Packet) (s : State) : State :=
  { s with
    outputs := s.outputs ++ [{ packet := p }]
    observed := if s.observer then s.observed ++ [{ packet := p }] else s.observed }

/-- Give a query its result on the result port (R82). Nothing else is written (R195). -/
def reply (r : QueryResult) (s : State) : State := { s with results := s.results ++ [r] }

/-- The reset input (R230, R232): a new construction with the given epoch. No state survives it but what is no state of the
block (R39): the parameters and the inputs not yet taken. -/
def resetInput (epoch : Nat) (s : State) : State :=
  { State.reset with epoch := epoch, params := s.params, pending := s.pending }

/-- The environment attaches the Observer (R233, step 2). -/
def attachObserver (s : State) : State := { s with observer := true }

/-- The block takes the next input: it leaves the queue (R62). -/
def takeInput (rest : List PortWord) (s : State) : State := { s with pending := rest }

/-- The refusal of what no port decodes (R80, R216). -/
def refusalOf : DecodeError → Refusal
  | .reservedQuery => .reservedQuery
  | .notAPortWord => .notAPortWord

end Sys2Proof.Machine
end

