-- ==== Sys2Proof/Machine/EdgeClassifier.lean ====
section
/-! DEFINITION. The Edge Classifier, the first stage of every event (spec/40_edge_classifier.md). -/

namespace Sys2Proof.Machine

/-- `classify(prev, new)` (R100). -/
def classify (prev new : Level) : EdgeClass :=
  match prev, new with
  | .low, .high => .rising
  | .high, .low => .falling
  | .low, .low => .steady
  | .high, .high => .steady

/-- The classifications `(c_clk, c_dat)` of one event (R102). -/
structure Edges where
  clk : EdgeClass
  dat : EdgeClass
  deriving DecidableEq, Repr

/-- The classification part of `Classify(s, line, level)` (R102): the line the event does not name is STEADY. -/
def edgesOf (line : Line) (level : Level) (s : State) : Edges :=
  match line with
  | .clk => { clk := classify s.clk level, dat := .steady }
  | .dat => { clk := .steady, dat := classify s.dat level }

/-- `Classify(s, line, level)` (R102): the classifications, and the state with the level recorded (R101). -/
def classifyEvent (line : Line) (level : Level) (s : State) : Edges × State :=
  (edgesOf line level s, recordLevel line level s)

end Sys2Proof.Machine
end

