-- ==== Sys2Proof/Machine/BitSampling.lean ====
section
/-! DEFINITION. Bit sampling and the bit-shift accumulator (spec/42_bit_sampling.md). -/

namespace Sys2Proof.Machine

/-- `k = ((n − 10) mod 9) + 1` with the non-negative residue (R132, D8). -/
def groupPosition (n : Nat) : Int := ((n : Int) - 10) % 9 + 1

/-- `emission(n)` (R132): what the bit with count `n` completes. -/
def emission (n : Nat) : Emission :=
  if n = 7 then .addr
  else if n = 8 then .dir
  else if 8 < n then
    if groupPosition n = 8 then .data
    else if groupPosition n = 9 then .ack
    else .none
  else .none

/-- The phase `φ(n)` that a finite bit counter may keep instead of `n` (R140). -/
def phase (n : Nat) : Nat := if n ≤ 9 then n else 10 + (n - 10) % 9

/-- The successor of a phase (R140). -/
def phaseSucc (φ : Nat) : Nat := if φ < 18 then φ + 1 else 10

/-- The emission as a function of the phase (R140, table B-EM). -/
def emissionOfPhase (φ : Nat) : Emission :=
  match φ with
  | 7 => .addr
  | 8 => .dir
  | 9 => .ack
  | 17 => .data
  | 18 => .ack
  | _ => .none

/-- `BitSample(s)` (R138) into an open transaction: shift and count (R131), then what the new bit count emits (R133 to R137). -/
def sampleInto (t : OpenTxn) (s : State) : Result :=
  let acc := shiftIn s.acc s.dat
  let n := s.n + 1
  match emission n with
  | .addr =>
    .next { s with
      n := n, acc := 0
      txn := some { t with par := { t.par with address := some (latchAddress acc) } } }
  | .dir =>
    .next { s with
      n := n, acc := 0
      txn := some { t with par := { t.par with direction := some (latchDirection acc) } } }
  | .data =>
    if atCapacity s.params.maxData t.par.data.length then capacityFault .data
    else
      .next { s with
        n := n, acc := 0
        txn := some { t with par := { t.par with data := t.par.data ++ [latchByte acc] } } }
  | .ack => .next { s with n := n, acc := 0 }
  | .none => .next { s with n := n, acc := acc }

/-- `BitSample(s)` (R138). It runs only with a parcel open (R130). -/
def bitSample (s : State) : Result :=
  match s.txn with
  | none => .next s
  | some t => sampleInto t s

end Sys2Proof.Machine
end

