-- ==== Sys2Proof/Machine/StartStop.lean ====
section
/-! DEFINITION. START and STOP, the two actions of the parcel/packet state machine (spec/43_start_stop.md). -/

namespace Sys2Proof.Machine

/-- Attach the open Parcel, as it stands, to the Packet in progress (R153, R154, R157). -/
def attachParcel (t : OpenTxn) : List Parcel := t.pkt.parcels ++ [t.par]

/-- `Start(s)` (R151): open a Packet if none is open (R152), else attach the open Parcel to it (R153); either way begin a
new Parcel and reset the accumulator and the bit count. -/
def startAction (s : State) : Result :=
  match s.txn with
  | none =>
    .next { s with
      txn := some { pkt := PacketInProgress.empty, par := Parcel.empty }, acc := 0, n := 0 }
  | some t =>
    if atCapacity s.params.maxParcels t.pkt.parcels.length then capacityFault .parcels
    else
      .next { s with
        txn := some { pkt := { parcels := attachParcel t }, par := Parcel.empty }, acc := 0, n := 0 }

/-- The Packet a STOP at time `time` closes (R157, R158). -/
def closedPacket (t : OpenTxn) (time : Nat) (s : State) : Packet :=
  { timestamp := timeDiff s.params.tsW time s.epoch, parcels := attachParcel t }

/-- `Stop(s, t)` (R157) on an open transaction: the Packet is appended to history and the in-progress pair cleared before
the output is made (R167); `acc` and `n` keep their values (R159). -/
def stopTxn (t : OpenTxn) (time : Nat) (s : State) : Result :=
  if atCapacity s.params.maxParcels t.pkt.parcels.length then capacityFault .parcels
  else
    andThen (histAppend (closedPacket t time s) s) fun s₁ =>
      .next (emitOut (closedPacket t time s) { s₁ with txn := none })

/-- `Stop(s, t)` (R157). It runs only with a parcel open (R156). -/
def stopAction (time : Nat) (s : State) : Result :=
  match s.txn with
  | none => .next s
  | some t => stopTxn t time s

end Sys2Proof.Machine
end

