-- ==== Sys2Proof/Machine/LineEvents.lean ====
section
/-! DEFINITION. The step of one line event (spec/41_line_events.md R110) and the four event instructions (R113 to R116). -/

namespace Sys2Proof.Machine

/-- `Step(s, (line, level, time))` (R110). The tests read the state after `Classify` has recorded the level. -/
def lineStep (line : Line) (level : Level) (time : Nat) (s : State) : Result :=
  let c := (classifyEvent line level s).1
  let s₁ := (classifyEvent line level s).2
  if c.clk = .rising ∧ parcelOpen s₁ = true then bitSample s₁
  else if c.clk = .steady ∧ s₁.clk = .high ∧ c.dat = .falling then startAction s₁
  else if c.clk = .steady ∧ s₁.clk = .high ∧ c.dat = .rising ∧ parcelOpen s₁ = true then
    stopAction time s₁
  else .next s₁

/-- `CLK_LO` (R113). -/
def execClkLo (time : Nat) (s : State) : Result := lineStep .clk .low time s

/-- `CLK_HI` (R114). -/
def execClkHi (time : Nat) (s : State) : Result := lineStep .clk .high time s

/-- `DAT_LO` (R115). -/
def execDatLo (time : Nat) (s : State) : Result := lineStep .dat .low time s

/-- `DAT_HI` (R116). -/
def execDatHi (time : Nat) (s : State) : Result := lineStep .dat .high time s

end Sys2Proof.Machine
end

