-- ==== Sys2Proof/Machine/PacketModel.lean ====
section
/-! DEFINITION. The derived classification of a closed Packet, computed and not stored (spec/44_packet_model.md R170 to R176). -/

namespace Sys2Proof.Machine

/-- `isWrite(p)` (R170): exactly one parcel, whose direction is WRITE. -/
def isWrite (p : Packet) : Bool :=
  match p.parcels with
  | [a] => decide (a.direction = some .write)
  | _ => false

/-- `isRead(p)` (R171): exactly two parcels, first WRITE and second READ. The addresses are not compared. -/
def isRead (p : Packet) : Bool :=
  match p.parcels with
  | [a, b] => decide (a.direction = some .write ∧ b.direction = some .read)
  | _ => false

/-- `register(p)` (R172): the first data byte of the first parcel, whatever its direction; absent where there is none (D11). -/
def register (p : Packet) : Option Byte :=
  match p.parcels with
  | [] => none
  | a :: _ => a.data.head?

/-- `payload(p)` (R173): a read packet's second parcel's bytes; otherwise the first parcel's bytes after the first. -/
def payload (p : Packet) : List Byte :=
  match p.parcels with
  | [] => []
  | a :: rest =>
    if isRead p then
      match rest with
      | b :: _ => b.data
      | [] => []
    else a.data.tail

/-- The predicate an entry of the table is fixed to. -/
def predSpec (d : PredSpec) (p : Packet) : Bool :=
  match d with
  | .isWrite => isWrite p
  | .isRead => isRead p
  | .firstAddressIs a =>
    match p.parcels with
    | [] => false
    | q :: _ => decide (q.address = some a)
  | .always b => b

/-- The entry of an index in a predicate table. -/
def predEntry (table : List (Nat × PredSpec)) (pidx : Nat) : Option PredSpec :=
  match table with
  | [] => none
  | (i, d) :: rest => if i = pidx then some d else predEntry rest pidx

/-- `PRED(pidx)` (R81): total on every index; an index with no entry has the free predicate `Config.pred pidx`. -/
def predicate (p : Params) (pidx : Nat) (k : Packet) : Bool :=
  match predEntry p.preds pidx with
  | some d => predSpec d k
  | none => Config.pred pidx k

end Sys2Proof.Machine
end

