-- ==== Sys2Proof/Machine/Queries.lean ====
section
/-! DEFINITION. The three history queries (spec/45_history.md R191 to R195). -/

namespace Sys2Proof.Machine

/-- `{status = FOUND, packet = some HistAt(i)}` (R82). -/
def foundAt (hist : List Packet) (i : Nat) : QueryResult :=
  { status := .found, packet := histAt hist i }

/-- `latest()` (R191). -/
def latest (hist : List Packet) : QueryResult :=
  if hist.length = 0 then { status := .emptyHistory, packet := none }
  else foundAt hist (hist.length - 1)

/-- `secondLatest()` (R192). -/
def secondLatest (hist : List Packet) : QueryResult :=
  if hist.length < 2 then { status := .insufficientHistory, packet := none }
  else foundAt hist (hist.length - 2)

/-- The scan of R193 over the positions below `i`, from the newest down. -/
def scanDown (f : Packet → Bool) (hist : List Packet) : Nat → QueryResult
  | 0 => { status := .notFound, packet := none }
  | i + 1 => if (histAt hist i).any f then foundAt hist i else scanDown f hist i

/-- `findLatestMatching(f)` (R193): newest to oldest, the first Packet satisfying `f`. -/
def findLatestMatching (f : Packet → Bool) (hist : List Packet) : QueryResult :=
  scanDown f hist hist.length

/-- The two-bit code of a status (R82). -/
def statusCode : QueryStatus → BitVec 2
  | .found => 0
  | .emptyHistory => 1
  | .insufficientHistory => 2
  | .notFound => 3

/-- `Q_LATEST` (R191). -/
def execQLatest (s : State) : Result := .next (reply (latest s.hist) s)

/-- `Q_SECOND_LATEST` (R192). -/
def execQSecondLatest (s : State) : Result := .next (reply (secondLatest s.hist) s)

/-- `Q_FIND p` (R193). -/
def execQFind (pidx : Nat) (s : State) : Result :=
  .next (reply (findLatestMatching (predicate s.params pidx) s.hist) s)

end Sys2Proof.Machine
end

