-- ==== Sys2Proof/Machine/Dispatch.lean ====
section
/-! DEFINITION. One arm per row of spec/opcode_table.json. -/

namespace Sys2Proof.Machine

def exec (i : Instr) (s : State) : Host.Outcome State Fault Refusal :=
  match i with
  | .clkLo time => Sys2Proof.Machine.execClkLo time s
  | .clkHi time => Sys2Proof.Machine.execClkHi time s
  | .datLo time => Sys2Proof.Machine.execDatLo time s
  | .datHi time => Sys2Proof.Machine.execDatHi time s
  | .qLatest => Sys2Proof.Machine.execQLatest s
  | .qSecondLatest => Sys2Proof.Machine.execQSecondLatest s
  | .qFind pidx => Sys2Proof.Machine.execQFind pidx s

end Sys2Proof.Machine
end

