-- ==== Sys2Proof/Machine/Step.lean ====
section
/-! DEFINITION. One step of the block: it takes the next input from its ports, one at a time, in delivery order (spec/20_memory.md
R59, R62), and is idle while there is none (spec/60_exceptions.md R220). -/

namespace Sys2Proof.Machine

/-- What a decoded input does. -/
def runCommand (c : Command) (s : State) : Host.Outcome State Fault Refusal :=
  match c with
  | .instr i => exec i s
  | .reset e => .next (resetInput e s)
  | .attach => .next (attachObserver s)

/-- One step: an idle block holds every field (R220); otherwise the next input is taken, decoded and run. -/
def step (s : State) : Host.Outcome State Fault Refusal :=
  match s.pending with
  | [] => .next s
  | x :: rest =>
    match decodeInput s.params x with
    | .ok c => runCommand c (takeInput rest s)
    | .error e => .refused (refusalOf e)

/-- `s` with an input queued before all others. -/
def State.withInput (s : State) (x : PortWord) : State := { s with pending := x :: s.pending }

/-- `s` with a table word standing on the event port as the next input (notes/assumptions/2.md): the very next step takes it. -/
def State.withFetchWord (s : State) (nbits w : Nat) : State := s.withInput (.event (w % 2 ^ nbits))

end Sys2Proof.Machine
end

