-- ==== Sys2Proof/Machine/Assembler.lean ====
section
/-! DEFINITION. The spec's assembler (spec/30_encoding.md R87 to R96): from lines to the words driven on the ports. It has no part
in the step. -/

namespace Sys2Proof.Machine

/-- A line of a program; no other line exists (R96). A bus bit is written as a level, 0 `low` and 1 `high`. -/
inductive AsmLine
  /-- `CLK_LO`, `CLK_HI`, `DAT_LO`, `DAT_HI` with an optional `@t` (R87). -/
  | event (line : Line) (level : Level) (at? : Option Nat)
  /-- `Q_LATEST` (R88). -/
  | qLatest
  /-- `Q_SECOND_LATEST` (R88). -/
  | qSecondLatest
  /-- `Q_FIND p` (R88). -/
  | qFind (pidx : Nat)
  /-- `.epoch E` (R89). -/
  | epoch (e : Nat)
  /-- `.time T0` (R89). -/
  | time (t : Nat)
  /-- `.levels c d` (R89). -/
  | levels (c d : Level)
  /-- `START` (R91). -/
  | start
  /-- `BIT b` (R92). -/
  | bit (b : Level)
  /-- `ADDR a, d [, k]` (R93). -/
  | addr (a : Address) (d : Dir) (k? : Option Level)
  /-- `BYTE v [, k]` (R94). -/
  | byte (v : Byte) (k? : Option Level)
  /-- `STOP` (R95). -/
  | stop
  deriving DecidableEq, Repr

/-- What the assembler keeps: the time counter `T` (R87), the tracked levels `Lc` and `Ld` (R90), and the words so far. -/
structure AsmState where
  time : Nat
  clk  : Level
  dat  : Level
  out  : List PortWord
  deriving DecidableEq, Repr

/-- The assembler's start: `T` is 0 and both lines are idle-high (R89). -/
def AsmState.start : AsmState := { time := 0, clk := .high, dat := .high, out := [] }

/-- One event word at the time `T`, which then rises by one, with the level tracked (R87, R90). -/
def asmEvent (line : Line) (level : Level) (a : AsmState) : AsmState :=
  { time := a.time + 1
    clk := match line with
      | .clk => level
      | .dat => a.clk
    dat := match line with
      | .clk => a.dat
      | .dat => level
    out := a.out ++ [encode (eventInstr line level a.time)] }

/-- One query word; it does not advance `T` (R88). -/
def asmQuery (i : Instr) (a : AsmState) : AsmState := { a with out := a.out ++ [encode i] }

/-- A step of an expansion taken only on a condition. -/
def asmWhen (c : Bool) (f : AsmState → AsmState) (a : AsmState) : AsmState := if c then f a else a

/-- `START` (R91). -/
def asmStart (a : AsmState) : AsmState :=
  let a := asmWhen (decide (a.clk = .high ∧ a.dat = .low)) (asmEvent .clk .low) a
  let a := asmWhen (decide (a.clk = .low))
    (fun a => asmEvent .clk .high (asmWhen (decide (a.dat = .low)) (asmEvent .dat .high) a)) a
  asmEvent .clk .low (asmEvent .dat .low a)

/-- `BIT b` (R92). -/
def asmBit (b : Level) (a : AsmState) : AsmState :=
  let a := asmWhen (decide (a.clk = .high)) (asmEvent .clk .low) a
  let a := asmWhen (decide (a.dat ≠ b)) (asmEvent .dat b) a
  asmEvent .clk .low (asmEvent .clk .high a)

/-- `STOP` (R95). -/
def asmStop (a : AsmState) : AsmState :=
  let a := asmWhen (decide (a.clk = .high)) (asmEvent .clk .low) a
  let a := asmWhen (decide (a.dat = .high)) (asmEvent .dat .low) a
  asmEvent .dat .high (asmEvent .clk .high a)

/-- A bit as the level that carries it on the bus. -/
def bitLevel (b : Bool) : Level := if b then .high else .low

/-- The bits of an address, most significant first (R93). -/
def addressBits (a : Address) : List Level :=
  [a[6], a[5], a[4], a[3], a[2], a[1], a[0]].map bitLevel

/-- The bits of a byte, most significant first (R94). -/
def byteBits (v : Byte) : List Level :=
  [v[7], v[6], v[5], v[4], v[3], v[2], v[1], v[0]].map bitLevel

/-- The direction bit: 0 for WRITE, 1 for READ (R93). -/
def dirBit : Dir → Level
  | .write => .low
  | .read => .high

/-- The ninth bit `k` of `ADDR` and `BYTE`: 0 where the line has none (R93, R94). -/
def ninthBit (k? : Option Level) : Level := k?.getD .low

/-- A sequence of `BIT` lines. -/
def asmBits (bs : List Level) (a : AsmState) : AsmState := bs.foldl (fun a b => asmBit b a) a

/-- One line after the first; `.epoch` stands first only (R89), so here it is refused. -/
def asmLine (l : AsmLine) (a : AsmState) : Option AsmState :=
  match l with
  | .event line level none => some (asmEvent line level a)
  | .event line level (some t) => some (asmEvent line level { a with time := t })
  | .qLatest => some (asmQuery .qLatest a)
  | .qSecondLatest => some (asmQuery .qSecondLatest a)
  | .qFind p => some (asmQuery (.qFind p) a)
  | .epoch _ => none
  | .time t => some { a with time := t }
  | .levels c d => some { a with clk := c, dat := d }
  | .start => some (asmStart a)
  | .bit b => some (asmBit b a)
  | .addr v d k => some (asmBits (addressBits v ++ [dirBit d, ninthBit k]) a)
  | .byte v k => some (asmBits (byteBits v ++ [ninthBit k]) a)
  | .stop => some (asmStop a)

/-- The lines of a program after its `.epoch` directive. -/
def asmLines (ls : List AsmLine) (a : AsmState) : Option AsmState :=
  match ls with
  | [] => some a
  | l :: rest => (asmLine l a).bind (asmLines rest)

/-- The epoch a program gives, and the lines after it (R89): without the directive the epoch is 0. -/
def asmEpoch : List AsmLine → Nat × List AsmLine
  | .epoch e :: rest => (e, rest)
  | ls => (0, ls)

/-- A program as the inputs of the ports: the reset input, then its event and query words in order (R87 to R96). -/
def assemble (ls : List AsmLine) : Option (List PortWord) :=
  (asmLines (asmEpoch ls).2 AsmState.start).map fun a => .reset (asmEpoch ls).1 :: a.out

end Sys2Proof.Machine
end

