-- ==== Sys2Proof/Safety.lean ====
section
/-! DEFINITION. What claims are stated in: parameter sets that impose no limit, what a run cannot break, and the stages of a
parcel. -/

namespace Sys2Proof.Machine

/-- Every capacity is at its default `∞` (R9): no fault can occur (R216). -/
def Unbounded (p : Params) : Prop := p.maxData = none ∧ p.maxParcels = none ∧ p.histCap = none

/-- A length that a capacity admits. -/
def Within (cap : Option Nat) (len : Nat) : Prop := ∀ c, cap = some c → len ≤ c

/-- How many bits the accumulator holds after `n` bits of a parcel: those sampled since the last emission (R139). -/
def bitsHeld (n : Nat) : Nat :=
  if n < 7 then n
  else if n < 9 then 0
  else if n % 9 = 8 then 0
  else n % 9

/-- The stage the open parcel has reached after `n` bits (R36, R71, R141): the address is set from bit 7 on, the direction
from bit 8 on, and one data byte is complete at every bit `9j + 8`. -/
structure ParcelStage (n : Nat) (q : Parcel) : Prop where
  address   : q.address.isSome = true ↔ 7 ≤ n
  direction : q.direction.isSome = true ↔ 8 ≤ n
  data      : q.data.length = (n - 8) / 9

/-- A parcel that was filled in bus order: a direction only after an address, data only after a direction (R141). -/
structure InBusOrder (q : Parcel) : Prop where
  direction : q.direction.isSome = true → q.address.isSome = true
  data      : q.data ≠ [] → q.direction.isSome = true

/-- A list of attached parcels that a block with parameters `p` can have built. -/
structure ParcelsOk (p : Params) (qs : List Parcel) : Prop where
  ordered : ∀ q ∈ qs, InBusOrder q
  sizes   : ∀ q ∈ qs, Within p.maxData q.data.length
  count   : Within p.maxParcels qs.length

/-- A closed Packet that a block with parameters `p` can have built: at least one parcel (R25, R174), and a timestamp in
the range of a finite `TS_W` (R158). -/
structure PacketOk (p : Params) (k : Packet) : Prop where
  nonempty : k.parcels ≠ []
  parcels  : ParcelsOk p k.parcels
  stamp    : ∀ w, p.tsW = some w → 0 ≤ k.timestamp ∧ k.timestamp < ((2 ^ w : Nat) : Int)

/-- The invariant of the decoder state: the accumulator bound (R139), the stage of the open parcel (R36, R141), the
well-formedness of what is attached and stored (R25, R174), the capacities (R199), and that the history is the
newest part of what was output (R167, R214). -/
structure Inv (s : State) : Prop where
  params   : s.params.wf = true
  acc      : s.acc < 2 ^ bitsHeld s.n
  stage    : ∀ t, s.txn = some t → ParcelStage s.n t.par
  parSize  : ∀ t, s.txn = some t → Within s.params.maxData t.par.data.length
  attached : ∀ t, s.txn = some t → ParcelsOk s.params t.pkt.parcels
  stored   : ∀ k ∈ s.hist, PacketOk s.params k
  histSize : Within s.params.histCap s.hist.length
  history  : s.hist <:+ s.outputs.map OutRecord.packet

/-- The event samples a bit if a parcel is open: a rising clock (R130). -/
abbrev ClockRise (line : Line) (level : Level) (s : State) : Prop :=
  line = .clk ∧ level = .high ∧ s.clk = .low

/-- The event is a START condition: a falling data line while the clock is high (R150). -/
abbrev StartCondition (line : Line) (level : Level) (s : State) : Prop :=
  line = .dat ∧ level = .low ∧ s.clk = .high ∧ s.dat = .high

/-- The event is a STOP condition: a rising data line while the clock is high (R156). -/
abbrev StopCondition (line : Line) (level : Level) (s : State) : Prop :=
  line = .dat ∧ level = .high ∧ s.clk = .high ∧ s.dat = .low

/-- The decoder fields of R20 of two states agree. -/
structure SameDecoder (s s' : State) : Prop where
  clk   : s'.clk = s.clk
  dat   : s'.dat = s.dat
  txn   : s'.txn = s.txn
  acc   : s'.acc = s.acc
  n     : s'.n = s.n
  epoch : s'.epoch = s.epoch
  hist  : s'.hist = s.hist

/-- What no instruction writes: the epoch (R32), the parameters (R31), the input queue and the Observer's presence. -/
structure SameEnvironment (s s' : State) : Prop where
  epoch    : s'.epoch = s.epoch
  params   : s'.params = s.params
  pending  : s'.pending = s.pending
  observer : s'.observer = s.observer

/-- The instructions of a list, one after the other, stopping at the first fault or refusal. -/
def execAll (is : List Instr) (s : State) : Result :=
  match is with
  | [] => .next s
  | i :: rest => andThen (exec i s) (execAll rest)

/-- The events that carry one bus bit while the clock is low: the data line takes the bit's level, the clock rises (the
sample) and falls (R92). The data event may repeat the recorded level, which changes nothing (R103). Their times are
0, since only STOP reads a time (R119). -/
def bitEvents (b : Level) : List Instr := [eventInstr .dat b 0, .clkHi 0, .clkLo 0]

/-- The events of a sequence of bus bits. -/
def bitsEvents (bs : List Level) : List Instr := bs.flatMap bitEvents

/-- The nine bits of an address group: address, direction and an acknowledgment bit `k` (R71). -/
def addressGroup (a : Address) (d : Dir) (k : Level) : List Level := addressBits a ++ [dirBit d, k]

/-- The nine bits of a data group: a byte and an acknowledgment bit `k` (R71). -/
def byteGroup (v : Byte) (k : Level) : List Level := byteBits v ++ [k]

/-- The events of one transaction from idle lines: START, an address group, one data group for each byte, and a STOP at
`time`. -/
def transactionEvents (a : Address) (d : Dir) (k : Level) (bytes : List (Byte × Level)) (time : Nat) :
    List Instr :=
  [.datLo 0, .clkLo 0] ++ bitsEvents (addressGroup a d k) ++
    bitsEvents (bytes.flatMap fun b => byteGroup b.1 b.2) ++ [.datLo 0, .clkHi 0, .datHi time]

end Sys2Proof.Machine
end

