-- ==== Sys2Proof/Certificates/Slice0/Obligations.lean ====
section
/-! DEFINITION. The statements for the provers. Each docstring names the rules of spec/ it formalises. -/

open Sys2Proof Sys2Proof.Machine

/-! ### Words -/

/-- R72, R76, R78, R79: words written out from the opcode maps (spec/95_test_vectors.md W1 to W6, Q1 to Q6) decode to the instructions
they stand for. -/
def Obligations.SampleWordsDecode : Prop :=
  let d := decodeInput Params.default
  d (.event 0b00) = .ok (.instr (.clkLo 0)) ∧ d (.event 0b10) = .ok (.instr (.clkHi 0)) ∧
  d (.event 0b01) = .ok (.instr (.datLo 0)) ∧ d (.event 0b11) = .ok (.instr (.datHi 0)) ∧
  d (.event 0x191) = .ok (.instr (.datLo 100)) ∧ d (.event 0x2AF) = .ok (.instr (.datHi 171)) ∧
  d (.query 0b00) = .ok (.instr .qLatest) ∧ d (.query 0b01) = .ok (.instr .qSecondLatest) ∧
  d (.query 0b10) = .ok (.instr (.qFind 0)) ∧ d (.query 0b110) = .ok (.instr (.qFind 1)) ∧
  d (.query 0b11) = .error .reservedQuery ∧ d (.query 0b100) = .error .reservedQuery ∧
  d (.query 0b101) = .error .reservedQuery

/-- R72, R78: for every parameter set, a well-formed instruction's word decodes to it, with every operand value its encoding
admits. -/
def Obligations.DecodeOfEncode : Prop :=
  ∀ (p : Params) (i : Instr), i.wellFormed p = true →
    decodeInput p (encode i) = .ok (.instr i)

/-- R72, R76, R78, R79, the other direction: each word has one meaning. That only a number within the width of its port has one is
the model's choice, not a rule of the spec (notes/assumptions/9.md): a number too wide for a finite `TS_W` or `PRED_W` is
refused and not cut to the fields of R85. -/
def Obligations.EncodeOfDecode : Prop :=
  ∀ (p : Params) (x : PortWord) (i : Instr), decodeInput p x = .ok (.instr i) →
    encode i = x ∧ i.wellFormed p = true ∧ x.fits p = true

/-- R77: every event word is legal; its two low bits select the instruction and every time is accepted. -/
def Obligations.EveryEventWordIsLegal : Prop :=
  ∀ (p : Params) (w : Nat), PortWord.fits p (.event w) = true →
    decodeInput p (.event w) = .ok (.instr (match w % 4 with
      | 0 => .clkLo (w / 4)
      | 1 => .datLo (w / 4)
      | 2 => .clkHi (w / 4)
      | _ => .datHi (w / 4)))

/-- R79, R80: the query opcode map. A query word is one of the three queries or is reserved, by its `op` and `pidx` fields. -/
def Obligations.QueryWordsByOpcode : Prop :=
  ∀ (p : Params) (op pidx : Nat), op < 4 → PortWord.fits p (.query (pidx * 4 + op)) = true →
    decodeInput p (.query (pidx * 4 + op)) =
      if op = 0 ∧ pidx = 0 then .ok (.instr .qLatest)
      else if op = 1 ∧ pidx = 0 then .ok (.instr .qSecondLatest)
      else if op = 2 then .ok (.instr (.qFind pidx))
      else .error .reservedQuery

/-- R80, R216: a reserved query word is refused by name. -/
def Obligations.ReservedQueryRefused : Prop :=
  ∀ (s : State) (rest : List PortWord) (op pidx : Nat), op < 4 →
    PortWord.fits s.params (.query (pidx * 4 + op)) = true →
    (op = 3 ∨ (op ≤ 1 ∧ pidx ≠ 0)) → s.pending = .query (pidx * 4 + op) :: rest →
    step s = .refused .reservedQuery

/-! ### The step and its inputs -/

/-- R59, R62: a step takes the next input of the queue and, where it decodes to an instruction, is that instruction's effect
on the state without that input. The queue is the model's own (notes/assumptions/1.md). -/
def Obligations.StepRunsDecodedInput : Prop :=
  ∀ (s : State) (x : PortWord) (rest : List PortWord) (i : Instr), s.pending = x :: rest →
    decodeInput s.params x = .ok (.instr i) → step s = exec i { s with pending := rest }

/-- R220: between events the block is idle and holds every field. -/
def Obligations.IdleHoldsEveryField : Prop :=
  ∀ s : State, s.pending = [] → step s = .next s

/-- R38, R230, R232: the reset input with an epoch of `TS_W` bits gives every decoder field its reset value, takes no event, keeps
the parameters and makes no output, whatever the state was. That the port records and the Observer start anew is the model's
choice (notes/assumptions/6.md). -/
def Obligations.ResetInputGivesResetValues : Prop :=
  ∀ (s : State) (e : Nat) (rest : List PortWord), s.pending = .reset e :: rest →
    fitsWidth s.params.tsW e = true →
    step s = .next
      { clk := .high, dat := .high, txn := none, acc := 0, n := 0, epoch := e, hist := [],
        params := s.params, pending := rest, observer := false, outputs := [], observed := [],
        results := [] }

/-- R38: the state after reset, each field of R20 named, with the epoch that notes/assumptions/3.md chooses for it. -/
def Obligations.ResetStateValues : Prop :=
  State.reset.clk = .high ∧ State.reset.dat = .high ∧ State.reset.pkt = none ∧
  State.reset.par = none ∧ State.reset.acc = 0 ∧ State.reset.n = 0 ∧ State.reset.hist = [] ∧
  State.reset = resetInput 0 State.reset

/-- R233, step 2: attaching the Observer changes nothing of the decoder. The input is the model's own (notes/assumptions/6.md). -/
def Obligations.AttachOnlySetsObserver : Prop :=
  ∀ (s : State) (rest : List PortWord), s.pending = .attach :: rest →
    step s = .next { s with pending := rest, observer := true }

/-! ### The Edge Classifier -/

/-- R100: the classification table. -/
def Obligations.ClassifierTable : Prop :=
  classify .low .high = .rising ∧ classify .high .low = .falling ∧
  classify .low .low = .steady ∧ classify .high .high = .steady

/-- R102: one event is classified against its own line's recorded level, the other line is STEADY, and the other line's register is
not written. -/
def Obligations.ClassifierPerEvent : Prop :=
  ∀ (level : Level) (s : State),
    classifyEvent .clk level s =
      ({ clk := classify s.clk level, dat := .steady }, { s with clk := level }) ∧
    classifyEvent .dat level s =
      ({ clk := .steady, dat := classify s.dat level }, { s with dat := level })

/-- R101: the register of the line an event names holds the event's level afterwards, whatever else the event does, and the other
line's register is unchanged. -/
def Obligations.LineRegistersFollowEvents : Prop :=
  ∀ (level : Level) (time : Nat) (s s' : State),
    (exec (eventInstr .clk level time) s = .next s' → s'.clk = level ∧ s'.dat = s.dat) ∧
    (exec (eventInstr .dat level time) s = .next s' → s'.dat = level ∧ s'.clk = s.clk)

/-- R103: an event whose level is the one recorded changes no state. -/
def Obligations.RedundantEventChangesNothing : Prop :=
  ∀ (line : Line) (time : Nat) (s : State),
    exec (eventInstr line (recordedLevel s line) time) s = .next s

/-- R60: an event repeated at once changes nothing more. -/
def Obligations.RepeatedEventIsIdempotent : Prop :=
  ∀ (line : Line) (level : Level) (time time' : Nat) (s s' : State),
    exec (eventInstr line level time) s = .next s' →
    exec (eventInstr line level time') s' = .next s'

/-! ### The event instructions -/

/-- R110: every event instruction is the step of its line and level: classify, then bit sampling, START, STOP or nothing, tested in
this order on the state after classification. -/
def Obligations.EventsFollowTheStep : Prop :=
  ∀ (line : Line) (level : Level) (time : Nat) (s s₁ : State) (c : Edges),
    classifyEvent line level s = (c, s₁) →
    exec (eventInstr line level time) s =
      if c.clk = .rising ∧ s₁.par ≠ none then bitSample s₁
      else if c.clk = .steady ∧ s₁.clk = .high ∧ c.dat = .falling then startAction s₁
      else if c.clk = .steady ∧ s₁.clk = .high ∧ c.dat = .rising ∧ s₁.par ≠ none then
        stopAction time s₁
      else .next s₁

/-- R112: an event that is no clock rise with a parcel open, no START condition and no STOP condition with a parcel open changes no
field except the register of the line it names. -/
def Obligations.OtherEventsOnlyRecordTheLevel : Prop :=
  ∀ (line : Line) (level : Level) (time : Nat) (s : State),
    ¬ (ClockRise line level s ∧ s.par ≠ none) → ¬ StartCondition line level s →
    ¬ (StopCondition line level s ∧ s.par ≠ none) →
    exec (eventInstr line level time) s = .next (match line with
      | .clk => { s with clk := level }
      | .dat => { s with dat := level })

/-- R113: `CLK_LO`. -/
def Obligations.ClkLoOnlyRecordsTheLevel : Prop :=
  ∀ (time : Nat) (s : State),
    encode (.clkLo time) = .event (time * 4 + 0b00) ∧
    (s.clk = .high → exec (.clkLo time) s = .next { s with clk := .low }) ∧
    (s.clk = .low → exec (.clkLo time) s = .next s)

/-- R114: `CLK_HI`. A rising clock samples a bit if a parcel is open; a redundant level samples nothing. -/
def Obligations.ClkHiSamplesOnARise : Prop :=
  ∀ (time : Nat) (s : State),
    encode (.clkHi time) = .event (time * 4 + 0b10) ∧
    (s.clk = .low → s.par = none → exec (.clkHi time) s = .next { s with clk := .high }) ∧
    (s.clk = .low → s.par ≠ none → exec (.clkHi time) s = bitSample { s with clk := .high }) ∧
    (s.clk = .high → exec (.clkHi time) s = .next s)

/-- R131 to R137: what a bit sample does, by the new bit count `m` and its group position `k`. `a` is the shifted accumulator; the address and
the byte latched are the values with that number (`Obligations.AccumulatorLosesNothing` says there is one in every state of the
invariant). -/
def Obligations.BitSampleByCount : Prop :=
  ∀ (time : Nat) (s : State) (t : OpenTxn) (a m : Nat) (k : Int), s.clk = .low → s.txn = some t →
    a = s.acc * 2 + (if s.dat = .high then 1 else 0) → m = s.n + 1 →
    k = ((m : Int) - 10) % 9 + 1 →
    (m = 7 → ∀ v : Address, v.toNat = a → exec (.clkHi time) s = .next { s with
      clk := .high, acc := 0, n := m
      txn := some { t with par := { t.par with address := some v } } }) ∧
    (m = 8 → exec (.clkHi time) s = .next { s with
      clk := .high, acc := 0, n := m
      txn := some { t with par := { t.par with
        direction := some (if a = 0 then .write else .read) } } }) ∧
    (8 < m → k = 8 → s.params.maxData ≠ some t.par.data.length → ∀ v : Byte, v.toNat = a →
      exec (.clkHi time) s = .next { s with
        clk := .high, acc := 0, n := m
        txn := some { t with par := { t.par with data := t.par.data ++ [v] } } }) ∧
    (8 < m → k = 9 → exec (.clkHi time) s = .next { s with clk := .high, acc := 0, n := m }) ∧
    (m < 7 ∨ (8 < m ∧ k ≠ 8 ∧ k ≠ 9) →
      exec (.clkHi time) s = .next { s with clk := .high, acc := a, n := m })

/-- R143: with a finite `MAX_DATA`, a byte completed into a parcel that holds `MAX_DATA` bytes stops the model. -/
def Obligations.DataCapacityFault : Prop :=
  ∀ (time : Nat) (s : State) (t : OpenTxn), s.clk = .low → s.txn = some t →
    8 < s.n + 1 → (((s.n + 1 : Nat) : Int) - 10) % 9 + 1 = 8 →
    s.params.maxData = some t.par.data.length →
    exec (.clkHi time) s = .fault (.capacityExceeded .data)

/-- R142: the value of an acknowledgment bit changes no field: after the sample the two states differ in the recorded data level alone. -/
def Obligations.AcknowledgmentIsDiscarded : Prop :=
  ∀ (time : Nat) (s : State) (d : Level), s.clk = .low → s.par ≠ none → 8 < s.n + 1 →
    (((s.n + 1 : Nat) : Int) - 10) % 9 + 1 = 9 →
    exec (.clkHi time) { s with dat := d } =
      .next { s with dat := d, clk := .high, acc := 0, n := s.n + 1 }

/-- R115: `DAT_LO`. With the clock high a fall is a START, whether or not a packet is open; with the clock low it is a set-up. -/
def Obligations.DatLoStartsOnAFall : Prop :=
  ∀ (time : Nat) (s : State),
    encode (.datLo time) = .event (time * 4 + 0b01) ∧
    (s.dat = .high → s.clk = .high → exec (.datLo time) s = startAction { s with dat := .low }) ∧
    (s.dat = .high → s.clk = .low → exec (.datLo time) s = .next { s with dat := .low }) ∧
    (s.dat = .low → exec (.datLo time) s = .next s)

/-- R151, R152, R153: START opens a Packet where none is open and otherwise attaches the open Parcel as it stands; either way a new Parcel is
begun and the accumulator and the bit count are zero. Nothing else changes but the data line's register. -/
def Obligations.StartOpensOrAttaches : Prop :=
  ∀ (time : Nat) (s : State), s.clk = .high → s.dat = .high →
    (s.txn = none → exec (.datLo time) s = .next { s with
      dat := .low, acc := 0, n := 0
      txn := some { pkt := { parcels := [] },
                    par := { address := none, direction := none, data := [] } } }) ∧
    (∀ t, s.txn = some t → s.params.maxParcels ≠ some t.pkt.parcels.length →
      exec (.datLo time) s = .next { s with
        dat := .low, acc := 0, n := 0
        txn := some { pkt := { parcels := t.pkt.parcels ++ [t.par] },
                      par := { address := none, direction := none, data := [] } } }) ∧
    (∀ t, s.txn = some t → s.params.maxParcels = some t.pkt.parcels.length →
      exec (.datLo time) s = .fault (.capacityExceeded .parcels))

/-- R116: `DAT_HI`. With the clock high and a parcel open a rise is a STOP; with none open it is a spurious STOP (R160), and with the
clock low a set-up. -/
def Obligations.DatHiStopsOnARise : Prop :=
  ∀ (time : Nat) (s : State),
    encode (.datHi time) = .event (time * 4 + 0b11) ∧
    (s.dat = .low → s.clk = .high → s.par ≠ none →
      exec (.datHi time) s = stopAction time { s with dat := .high }) ∧
    (s.dat = .low → (s.clk = .low ∨ s.par = none) →
      exec (.datHi time) s = .next { s with dat := .high }) ∧
    (s.dat = .high → exec (.datHi time) s = .next s)

/-- R157, R158, R159: STOP attaches the open Parcel, stamps the Packet with the STOP's time minus the epoch, appends it to history, clears
the in-progress pair and outputs the Packet once, to the Observer if one is attached (R196); the accumulator and the bit count
keep their values. -/
def Obligations.StopClosesThePacket : Prop :=
  ∀ (time : Nat) (s : State) (t : OpenTxn) (p : Packet), s.clk = .high → s.dat = .low →
    s.txn = some t → s.params.maxParcels ≠ some t.pkt.parcels.length →
    s.params.histCap ≠ some s.hist.length →
    p.parcels = t.pkt.parcels ++ [t.par] →
    (s.params.tsW = none → p.timestamp = (time : Int) - (s.epoch : Int)) →
    (∀ w, s.params.tsW = some w →
      0 ≤ p.timestamp ∧ p.timestamp < 2 ^ w ∧
        ((2 ^ w : Int)) ∣ (time : Int) - (s.epoch : Int) - p.timestamp) →
    exec (.datHi time) s = .next { s with
      dat := .high, txn := none, hist := s.hist ++ [p]
      outputs := s.outputs ++ [{ packet := p }]
      observed := if s.observer = true then s.observed ++ [{ packet := p }] else s.observed }

/-- R52, R163, R199: at a finite capacity a STOP faults, or evicts the oldest Packet before the append where `HIST_OVERFLOW` says so.
An evicting STOP is otherwise the STOP of R157: its Packet has the attached Parcels and the STOP's time minus the epoch (R158), is
output once, to the Observer if one is attached (R196), and everything else, the accumulator and the bit count among it (R159),
is kept. -/
def Obligations.StopAtACapacity : Prop :=
  ∀ (time : Nat) (s : State) (t : OpenTxn), s.clk = .high → s.dat = .low → s.txn = some t →
    (s.params.maxParcels = some t.pkt.parcels.length →
      exec (.datHi time) s = .fault (.capacityExceeded .parcels)) ∧
    (s.params.maxParcels ≠ some t.pkt.parcels.length →
      s.params.histCap = some s.hist.length →
      (s.params.histOverflow = .fault →
        exec (.datHi time) s = .fault (.capacityExceeded .history)) ∧
      (∀ p : Packet, s.params.histOverflow = .evictOldest →
        p.parcels = t.pkt.parcels ++ [t.par] →
        (s.params.tsW = none → p.timestamp = (time : Int) - (s.epoch : Int)) →
        (∀ w, s.params.tsW = some w →
          0 ≤ p.timestamp ∧ p.timestamp < 2 ^ w ∧
            ((2 ^ w : Int)) ∣ (time : Int) - (s.epoch : Int) - p.timestamp) →
        exec (.datHi time) s = .next { s with
          dat := .high, txn := none, hist := s.hist.drop 1 ++ [p]
          outputs := s.outputs ++ [{ packet := p }]
          observed := if s.observer = true then s.observed ++ [{ packet := p }] else s.observed }))

/-- R119: only a STOP reads the event's time. -/
def Obligations.TimeMattersOnlyToStop : Prop :=
  ∀ (line : Line) (level : Level) (time time' : Nat) (s : State),
    ¬ (StopCondition line level s ∧ s.par ≠ none) →
    exec (eventInstr line level time) s = exec (eventInstr line level time') s

/-- R164: the parcel/packet state machine. An instruction leaves IDLE only by a START condition and OPEN only by a STOP condition; a START
zeroes the bit count, a clock rise in OPEN counts one bit, and nothing else changes the count. -/
def Obligations.PacketStateMachine : Prop :=
  ∀ (line : Line) (level : Level) (time : Nat) (s s' : State),
    exec (eventInstr line level time) s = .next s' →
    machinePhase s' =
        (if StartCondition line level s then .opened
         else if StopCondition line level s then .idle else machinePhase s) ∧
      s'.n =
        (if StartCondition line level s then 0
         else if ClockRise line level s ∧ machinePhase s = .opened then s.n + 1 else s.n)

/-! ### Bit counts and bit order -/

/-- R132: the emission of every bit count from 1 to 30 (spec/95_test_vectors.md, table B-EM). -/
def Obligations.EmissionTable : Prop :=
  (List.range 30).map (fun n => emission (n + 1)) =
    [.none, .none, .none, .none, .none, .none, .addr, .dir, .ack, .none,
     .none, .none, .none, .none, .none, .none, .data, .ack, .none, .none,
     .none, .none, .none, .none, .none, .data, .ack, .none, .none, .none]

/-- R140: a counter that keeps only the phase, from 0 to 18, gives the same emissions. -/
def Obligations.PhaseCounterSuffices : Prop :=
  phase 0 = 0 ∧ ∀ n : Nat, phase n ≤ 18 ∧ phase (n + 1) = phaseSucc (phase n) ∧
    emission n = emissionOfPhase (phase n)

/-- R71, R86: nine bus bits after a START, most significant address bit first, then the direction and any acknowledgment bit, set the
address and the direction of the open parcel and nothing else of it. -/
def Obligations.AddressGroupIsLatched : Prop :=
  ∀ (a : Address) (d : Dir) (k : Level) (s : State) (t : OpenTxn), s.clk = .low →
    s.txn = some t → s.n = 0 → s.acc = 0 →
    execAll (bitsEvents (addressGroup a d k)) s = .next { s with
      dat := k, n := 9
      txn := some { t with par := { t.par with address := some a, direction := some d } } }

/-- R71, R86: at any group boundary, nine bus bits, most significant first and then any acknowledgment bit, append exactly their byte to
the open parcel, for every byte. -/
def Obligations.ByteGroupIsAppended : Prop :=
  ∀ (v : Byte) (k : Level) (s : State) (t : OpenTxn) (j : Nat), 1 ≤ j → s.clk = .low →
    s.txn = some t → s.n = 9 * j → s.acc = 0 → s.params.maxData ≠ some t.par.data.length →
    execAll (bitsEvents (byteGroup v k)) s = .next { s with
      dat := k, n := s.n + 9
      txn := some { t with par := { t.par with data := t.par.data ++ [v] } } }

/-- The source's transaction properties (spec/95_test_vectors.md S1 and S3, S7), for every address, direction and sequence of bytes, with any
acknowledgment bits: from any idle state with both lines high, the events of one transaction append and output exactly one Packet, with
one Parcel of that address, direction and data, stamped with the STOP's time minus the epoch. -/
def Obligations.TransactionDecodesToItsPacket : Prop :=
  ∀ (a : Address) (d : Dir) (k : Level) (bytes : List (Byte × Level)) (time : Nat) (s : State)
    (p : Packet), Unbounded s.params → s.params.tsW = none → s.clk = .high → s.dat = .high →
    s.txn = none →
    p = { timestamp := (time : Int) - (s.epoch : Int)
          parcels := [{ address := some a, direction := some d, data := bytes.map Prod.fst }] } →
    execAll (transactionEvents a d k bytes time) s = .next { s with
      acc := 0, n := 9 * bytes.length + 10, hist := s.hist ++ [p]
      outputs := s.outputs ++ [{ packet := p }]
      observed := if s.observer = true then s.observed ++ [{ packet := p }] else s.observed }

/-! ### Invariants -/

/-- R139, R36, R141, R174, R167, R199: the invariant `Inv`, kept by every step from every state that has it. -/
def Obligations.StepKeepsTheInvariant : Prop :=
  ∀ s s' : State, Inv s → step s = .next s' → Inv s'

/-- The invariant holds after reset. -/
def Obligations.ResetHasTheInvariant : Prop := Inv State.reset

/-- R139: in every state of the invariant the accumulator fits 8 bits, and what a bit sample latches is its exact value. -/
def Obligations.AccumulatorLosesNothing : Prop :=
  ∀ s : State, Inv s →
    s.acc < 256 ∧
    (emission (s.n + 1) = .addr →
      (latchAddress (shiftIn s.acc s.dat)).toNat = shiftIn s.acc s.dat) ∧
    (emission (s.n + 1) = .dir → shiftIn s.acc s.dat ≤ 1) ∧
    (emission (s.n + 1) = .data → (latchByte (shiftIn s.acc s.dat)).toNat = shiftIn s.acc s.dat)

/-- R36: in a state of the invariant a parcel's address and direction, once set, are not written again while the parcel is open. -/
def Obligations.AddressAndDirectionAreSetOnce : Prop :=
  ∀ (i : Instr) (s s' : State) (t t' : OpenTxn), Inv s → exec i s = .next s' →
    s.txn = some t → s'.txn = some t' → t'.pkt = t.pkt →
    (∀ a, t.par.address = some a → t'.par.address = some a) ∧
    (∀ d, t.par.direction = some d → t'.par.direction = some d) ∧
    t.par.data <+: t'.par.data

/-- R35: no instruction changes an attached parcel: a packet that stays open keeps its parcels in front, and one that is closed goes
to history with them all. -/
def Obligations.AttachedParcelsNeverChange : Prop :=
  ∀ (i : Instr) (s s' : State) (t : OpenTxn), exec i s = .next s' → s.txn = some t →
    (∀ t', s'.txn = some t' → t.pkt.parcels <+: t'.pkt.parcels) ∧
    (s'.txn = none → ∃ p, s'.hist.getLast? = some p ∧ p.parcels = t.pkt.parcels ++ [t.par])

/-- R51, R190, R214: no instruction but `DAT_HI` at a STOP condition with a parcel open writes the history or makes an output, and that one
adds one and the same Packet at the newest end of both. -/
def Obligations.OnlyStopWritesHistory : Prop :=
  ∀ (i : Instr) (s s' : State), exec i s = .next s' →
    (s'.hist = s.hist ∧ s'.outputs = s.outputs ∧ s'.observed = s.observed) ∨
    (∃ time p old, i = .datHi time ∧ s.clk = .high ∧ s.dat = .low ∧ s.par ≠ none ∧
      (old = s.hist ∨ old = s.hist.drop 1) ∧ s'.hist = old ++ [p] ∧
      s'.outputs = s.outputs ++ [{ packet := p }])

/-- R167, R214, R240: with an unbounded history, the history is the sequence of packet outputs since reset, in order; every step
keeps it so. That `outputs` holds the outputs since the last reset input, which empties it together with the history, is the
model's choice (notes/assumptions/6.md), and the case of a reset input rests on it. -/
def Obligations.HistoryIsTheOutputs : Prop :=
  ∀ s s' : State, s.params.histCap = none → s.hist = s.outputs.map OutRecord.packet →
    step s = .next s' →
    s'.params.histCap = none ∧ s'.hist = s'.outputs.map OutRecord.packet

/-- R31, R32: no instruction writes the epoch or the parameters, nor the environment's queue and Observer. -/
def Obligations.EpochAndParametersAreFixed : Prop :=
  ∀ (i : Instr) (s s' : State), exec i s = .next s' → SameEnvironment s s'

/-- R216: with every capacity `∞` no fault can occur; indeed every instruction completes. -/
def Obligations.UnboundedBlockNeverStops : Prop :=
  ∀ (i : Instr) (s : State), Unbounded s.params → ∃ s', exec i s = .next s'

/-- R216: an instruction faults only for a finite capacity that is reached, and none is refused. -/
def Obligations.FaultsOnlyAtAFiniteCapacity : Prop :=
  ∀ (i : Instr) (s : State),
    (∀ r, exec i s ≠ .refused r) ∧
    (∀ f, exec i s = .fault f → ∃ t, s.txn = some t ∧
      ((f = .capacityExceeded .data ∧ s.params.maxData = some t.par.data.length) ∨
       (f = .capacityExceeded .parcels ∧ s.params.maxParcels = some t.pkt.parcels.length) ∨
       (f = .capacityExceeded .history ∧ s.params.histCap = some s.hist.length ∧
         s.params.histOverflow = .fault)))

/-! ### Queries -/

/-- R191: `Q_LATEST`. -/
def Obligations.QLatestAnswersTheNewest : Prop :=
  ∀ s : State,
    encode .qLatest = .query 0b00 ∧
    (s.hist = [] → exec .qLatest s = .next { s with
      results := s.results ++ [{ status := .emptyHistory, packet := none }] }) ∧
    (∀ older p, s.hist = older ++ [p] → exec .qLatest s = .next { s with
      results := s.results ++ [{ status := .found, packet := some p }] })

/-- R192: `Q_SECOND_LATEST`. With no Packet the result is INSUFFICIENT_HISTORY too. -/
def Obligations.QSecondLatestAnswersTheOneBefore : Prop :=
  ∀ s : State,
    encode .qSecondLatest = .query 0b01 ∧
    (s.hist.length < 2 → exec .qSecondLatest s = .next { s with
      results := s.results ++ [{ status := .insufficientHistory, packet := none }] }) ∧
    (∀ older p q, s.hist = older ++ [p, q] → exec .qSecondLatest s = .next { s with
      results := s.results ++ [{ status := .found, packet := some p }] })

/-- R193: `Q_FIND p`. The newest Packet that satisfies `PRED(p)`, or NOT_FOUND, for whatever predicate the index names. -/
def Obligations.QFindAnswersTheNewestMatch : Prop :=
  ∀ (s : State) (pidx : Nat),
    encode (.qFind pidx) = .query (pidx * 4 + 0b10) ∧
    ((∀ k ∈ s.hist, predicate s.params pidx k = false) → exec (.qFind pidx) s = .next { s with
      results := s.results ++ [{ status := .notFound, packet := none }] }) ∧
    (∀ older p newer, s.hist = older ++ p :: newer → predicate s.params pidx p = true →
      (∀ k ∈ newer, predicate s.params pidx k = false) → exec (.qFind pidx) s = .next { s with
        results := s.results ++ [{ status := .found, packet := some p }] })

/-- R195, R60: a query writes no field of the decoder state, makes no output, and asked again gives the same answer. -/
def Obligations.QueriesChangeNothing : Prop :=
  ∀ (i : Instr) (s : State), i.isQuery = true → ∃ r : QueryResult,
    exec i s = .next { s with results := s.results ++ [r] } ∧
    exec i { s with results := s.results ++ [r] } = .next { s with results := s.results ++ [r, r] }

/-- R193: a predicate true of every Packet finds the same Packet as `latest()`, where there is one. -/
def Obligations.TruePredicateFindsTheLatest : Prop :=
  ∀ (f : Packet → Bool) (hist : List Packet), hist ≠ [] → (∀ k ∈ hist, f k = true) →
    findLatestMatching f hist = latest hist

/-- R65: `Q_LATEST` right after a STOP answers the Packet that the STOP output. -/
def Obligations.LatestAfterStopIsThePacketOutput : Prop :=
  ∀ (time : Nat) (s s₁ : State) (o : OutRecord), exec (.datHi time) s = .next s₁ →
    s₁.outputs = s.outputs ++ [o] →
    exec .qLatest s₁ = .next { s₁ with
      results := s₁.results ++ [{ status := .found, packet := some o.packet }] }

/-! ### The packet model -/

/-- R170: the write packet test. -/
def Obligations.WritePacketTest : Prop :=
  ∀ p : Packet, isWrite p = true ↔ ∃ a, p.parcels = [a] ∧ a.direction = some .write

/-- R171: the read packet test. The addresses play no part. -/
def Obligations.ReadPacketTest : Prop :=
  ∀ p : Packet, isRead p = true ↔
    ∃ a b, p.parcels = [a, b] ∧ a.direction = some .write ∧ b.direction = some .read

/-- R172: the register of a Packet. -/
def Obligations.RegisterIsTheFirstByte : Prop :=
  ∀ p : Packet,
    (∀ a rest v vs, p.parcels = a :: rest → a.data = v :: vs → register p = some v) ∧
    (∀ a rest, p.parcels = a :: rest → a.data = [] → register p = none) ∧
    (p.parcels = [] → register p = none)

/-- R173: the payload of a Packet. -/
def Obligations.PayloadOfAPacket : Prop :=
  ∀ (p : Packet) (a : Parcel) (rest : List Parcel), p.parcels = a :: rest →
    (isRead p = true → ∃ b, rest = [b] ∧ payload p = b.data) ∧
    (isRead p = false → payload p = a.data.drop 1)

/-- R175: no Packet is both a write packet and a read packet. -/
def Obligations.WriteAndReadExclude : Prop :=
  ∀ p : Packet, ¬ (isWrite p = true ∧ isRead p = true)
end

