-- ==== Sys2Proof/Laws/Actions.lean ====
section
/-! SUPPORT. What each shared operation and each action can do, said once: provers cite these and do not unfold the operations. -/

namespace Sys2Proof.Machine

@[simp] theorem andThen_next (s : State) (f : State → Result) : andThen (.next s) f = f s := rfl

/-- A sequence of two parts ends in a next state only through one. -/
theorem andThen_eq_next {r : Result} {f : State → Result} {s' : State} (h : andThen r f = .next s') :
    ∃ s₁, r = .next s₁ ∧ f s₁ = .next s' := by
  cases r with
  | next s₁ => exact ⟨s₁, rfl, h⟩
  | fault e => cases h
  | refused e => cases h

@[simp] theorem atCapacity_none (len : Nat) : atCapacity none len = false := rfl

theorem atCapacity_some (c len : Nat) : atCapacity (some c) len = true ↔ len = c := by
  simp [atCapacity]

@[simp] theorem recordedLevel_recordLevel (line : Line) (v : Level) (s : State) :
    recordedLevel (recordLevel line v s) line = v := by
  cases line <;> rfl

/-- Recording the level a line already has changes nothing (R103). -/
theorem recordLevel_recorded (line : Line) (s : State) :
    recordLevel line (recordedLevel s line) s = s := by
  cases line <;> rfl

theorem parcelOpen_iff (s : State) : parcelOpen s = true ↔ ∃ t, s.txn = some t := by
  simp [parcelOpen, State.par, Option.isSome_iff_exists]

/-- The two presence conditions agree (R30). -/
theorem packetOpen_eq_parcelOpen (s : State) : packetOpen s = parcelOpen s := by
  simp [packetOpen, parcelOpen, State.pkt, State.par]

@[simp] theorem classify_self (v : Level) : classify v v = .steady := by
  cases v <;> rfl

theorem classify_eq_rising {a b : Level} : classify a b = .rising ↔ a = .low ∧ b = .high := by
  cases a <;> cases b <;> simp [classify]

theorem classify_eq_falling {a b : Level} : classify a b = .falling ↔ a = .high ∧ b = .low := by
  cases a <;> cases b <;> simp [classify]

/-- `HistAppend` adds the packet at the newest end, after evicting at most the oldest (R52). -/
theorem histAppend_next {p : Packet} {s s' : State} (h : histAppend p s = .next s') :
    (s' = { s with hist := s.hist ++ [p] } ∧
        atCapacity s.params.histCap s.hist.length = false) ∨
      (s' = { s with hist := s.hist.tail ++ [p] } ∧
        atCapacity s.params.histCap s.hist.length = true ∧
        s.params.histOverflow = .evictOldest) := by
  unfold histAppend at h
  split at h
  · next hc =>
    split at h
    · cases h
    · next ho =>
      cases h
      exact .inr ⟨rfl, hc, ho⟩
  · next hc =>
    cases h
    exact .inl ⟨rfl, by simpa using hc⟩

/-- The emission in natural-number arithmetic (R132: for `n ≥ 9`, `n − 10` and `n − 1` differ by 9). -/
theorem emission_eq (n : Nat) :
    emission n =
      if n = 7 then .addr else if n = 8 then .dir
      else if 8 < n ∧ n % 9 = 8 then .data else if 8 < n ∧ n % 9 = 0 then .ack else .none := by
  unfold emission groupPosition
  by_cases h7 : n = 7
  · simp [h7]
  by_cases h8 : n = 8
  · simp [h8]
  by_cases h : 8 < n
  · have k8 : ((n : Int) - 10) % 9 + 1 = 8 ↔ n % 9 = 8 := by omega
    have k9 : ((n : Int) - 10) % 9 + 1 = 9 ↔ n % 9 = 0 := by omega
    simp only [h7, h8, h, k8, k9, if_true, if_false, true_and]
  · simp [h7, h8, h]

theorem emission_addr {n : Nat} : emission n = .addr ↔ n = 7 := by
  rw [emission_eq]
  constructor
  · intro h
    (repeat' split at h) <;> first | assumption | cases h
  · rintro rfl
    rfl

theorem emission_dir {n : Nat} : emission n = .dir ↔ n = 8 := by
  rw [emission_eq]
  constructor
  · intro h
    (repeat' split at h) <;> first | assumption | cases h
  · rintro rfl
    rfl

theorem emission_data {n : Nat} : emission n = .data ↔ 8 < n ∧ n % 9 = 8 := by
  rw [emission_eq]
  constructor
  · intro h
    (repeat' split at h) <;> first | assumption | cases h
  · intro h
    rw [if_neg (by omega), if_neg (by omega), if_pos h]

theorem emission_ack {n : Nat} : emission n = .ack ↔ 8 < n ∧ n % 9 = 0 := by
  rw [emission_eq]
  constructor
  · intro h
    (repeat' split at h) <;> first | assumption | cases h
  · intro h
    rw [if_neg (by omega), if_neg (by omega), if_neg (by omega), if_pos h]

theorem emission_none {n : Nat} :
    emission n = .none ↔ n < 7 ∨ (8 < n ∧ n % 9 ≠ 8 ∧ n % 9 ≠ 0) := by
  rw [emission_eq]
  constructor
  · intro h
    (repeat' split at h) <;> first | omega | cases h
  · intro h
    rw [if_neg (by omega), if_neg (by omega), if_neg (by omega), if_neg (by omega)]

/-- What a bit sample into the open transaction can do when it completes: it counts the bit and changes nothing but the
accumulator, the bit count and the open parcel, by the emission of the new count (R133 to R138). -/
theorem sampleInto_next {t : OpenTxn} {s s' : State} (ht : s.txn = some t)
    (h : sampleInto t s = .next s') :
    ∃ acc par, s' = { s with n := s.n + 1, acc := acc, txn := some { t with par := par } } ∧
      ((emission (s.n + 1) = .addr ∧ acc = 0 ∧
          par = { t.par with address := some (latchAddress (shiftIn s.acc s.dat)) }) ∨
        (emission (s.n + 1) = .dir ∧ acc = 0 ∧
          par = { t.par with direction := some (latchDirection (shiftIn s.acc s.dat)) }) ∨
        (emission (s.n + 1) = .data ∧ acc = 0 ∧
          atCapacity s.params.maxData t.par.data.length = false ∧
          par = { t.par with data := t.par.data ++ [latchByte (shiftIn s.acc s.dat)] }) ∨
        (emission (s.n + 1) = .ack ∧ acc = 0 ∧ par = t.par) ∨
        (emission (s.n + 1) = .none ∧ acc = shiftIn s.acc s.dat ∧ par = t.par)) := by
  have same : ∀ a, ({ s with n := s.n + 1, acc := a } : State) =
      { s with n := s.n + 1, acc := a, txn := some { t with par := t.par } } := by
    intro a
    rw [← ht]
  unfold sampleInto at h
  dsimp only at h
  split at h
  · next he =>
    cases h
    exact ⟨_, _, rfl, .inl ⟨he, rfl, rfl⟩⟩
  · next he =>
    cases h
    exact ⟨_, _, rfl, .inr (.inl ⟨he, rfl, rfl⟩)⟩
  · next he =>
    split at h
    · cases h
    · next hc =>
      cases h
      exact ⟨_, _, rfl, .inr (.inr (.inl ⟨he, rfl, by simpa using hc, rfl⟩))⟩
  · next he =>
    cases h
    exact ⟨_, _, same _, .inr (.inr (.inr (.inl ⟨he, rfl, rfl⟩)))⟩
  · next he =>
    cases h
    exact ⟨_, _, same _, .inr (.inr (.inr (.inr ⟨he, rfl, rfl⟩)))⟩

/-- What START can do when it completes (R151). -/
theorem startAction_next {s s' : State} (h : startAction s = .next s') :
    ∃ qs, s' = { s with
        txn := some { pkt := { parcels := qs }, par := Parcel.empty }, acc := 0, n := 0 } ∧
      ((s.txn = none ∧ qs = []) ∨
        ∃ t, s.txn = some t ∧ qs = t.pkt.parcels ++ [t.par] ∧
          atCapacity s.params.maxParcels t.pkt.parcels.length = false) := by
  unfold startAction at h
  split at h
  · next ht =>
    cases h
    exact ⟨[], rfl, .inl ⟨ht, rfl⟩⟩
  · next t ht =>
    split at h
    · cases h
    · next hc =>
      cases h
      exact ⟨_, rfl, .inr ⟨t, ht, rfl, by simpa using hc⟩⟩

/-- What STOP can do on an open transaction when it completes (R157): the history gains the closed Packet, and so does the
packet output. -/
theorem stopTxn_next {t : OpenTxn} {time : Nat} {s s' : State} (h : stopTxn t time s = .next s') :
    atCapacity s.params.maxParcels t.pkt.parcels.length = false ∧
      ∃ old, s' = emitOut (closedPacket t time s)
          { s with hist := old ++ [closedPacket t time s], txn := none } ∧
        ((old = s.hist ∧ atCapacity s.params.histCap s.hist.length = false) ∨
          (old = s.hist.tail ∧ atCapacity s.params.histCap s.hist.length = true ∧
            s.params.histOverflow = .evictOldest)) := by
  unfold stopTxn at h
  split at h
  · cases h
  next hc =>
  obtain ⟨s₁, h₁, h₂⟩ := andThen_eq_next h
  cases h₂
  refine ⟨by simpa using hc, ?_⟩
  obtain ⟨rfl, room⟩ | ⟨rfl, evicts⟩ := histAppend_next h₁
  · exact ⟨_, rfl, .inl ⟨rfl, room⟩⟩
  · exact ⟨_, rfl, .inr ⟨rfl, evicts⟩⟩

/-- What an event can do when it completes, with the guard of each case (R110): sample a bit, start, stop, or only record
the level. -/
theorem lineStep_next {line : Line} {level : Level} {time : Nat} {s s' : State}
    (h : lineStep line level time s = .next s') :
    (∃ t, line = .clk ∧ level = .high ∧ s.clk = .low ∧ s.txn = some t ∧
        sampleInto t { s with clk := .high } = .next s') ∨
      (line = .dat ∧ level = .low ∧ s.clk = .high ∧ s.dat = .high ∧
        startAction { s with dat := .low } = .next s') ∨
      (∃ t, line = .dat ∧ level = .high ∧ s.clk = .high ∧ s.dat = .low ∧ s.txn = some t ∧
        stopTxn t time { s with dat := .high } = .next s') ∨
      s' = recordLevel line level s := by
  have bits : ∀ s₁ : State, bitSample s₁ = match s₁.txn with
      | none => .next s₁
      | some t => sampleInto t s₁ := fun _ => rfl
  have stops : ∀ s₁ : State, stopAction time s₁ = match s₁.txn with
      | none => .next s₁
      | some t => stopTxn t time s₁ := fun _ => rfl
  unfold lineStep at h
  dsimp only at h
  split at h
  · next g =>
    cases line with
    | dat => cases g.1
    | clk =>
      obtain ⟨hp, rfl⟩ := classify_eq_rising.mp g.1
      obtain ⟨t, ht⟩ := (parcelOpen_iff _).mp g.2
      rw [bits, ht] at h
      exact .inl ⟨t, rfl, rfl, hp, ht, h⟩
  · split at h
    · next g =>
      cases line with
      | clk => cases g.2.2
      | dat =>
        obtain ⟨hp, rfl⟩ := classify_eq_falling.mp g.2.2
        exact .inr (.inl ⟨rfl, rfl, g.2.1, hp, h⟩)
    · split at h
      · next g =>
        cases line with
        | clk => cases g.2.2.1
        | dat =>
          obtain ⟨hp, rfl⟩ := classify_eq_rising.mp g.2.2.1
          obtain ⟨t, ht⟩ := (parcelOpen_iff _).mp g.2.2.2
          rw [stops, ht] at h
          exact .inr (.inr (.inl ⟨t, rfl, rfl, g.2.1, hp, ht, h⟩))
      · cases h
        exact .inr (.inr (.inr rfl))

/-- An event instruction is the step of its line and level (R110). -/
theorem exec_eventInstr (line : Line) (level : Level) (time : Nat) :
    exec (eventInstr line level time) = lineStep line level time := by
  cases line <;> cases level <;> rfl

/-- Every instruction is an event of its line and level or a query that only replies. -/
theorem exec_cases (i : Instr) :
    (∃ line level time, i = eventInstr line level time ∧ exec i = lineStep line level time) ∨
      (i.isQuery = true ∧ ∃ f : State → QueryResult, ∀ s, exec i s = .next (reply (f s) s)) := by
  cases i with
  | clkLo t => exact .inl ⟨.clk, .low, t, rfl, rfl⟩
  | clkHi t => exact .inl ⟨.clk, .high, t, rfl, rfl⟩
  | datLo t => exact .inl ⟨.dat, .low, t, rfl, rfl⟩
  | datHi t => exact .inl ⟨.dat, .high, t, rfl, rfl⟩
  | qLatest => exact .inr ⟨rfl, _, fun _ => rfl⟩
  | qSecondLatest => exact .inr ⟨rfl, _, fun _ => rfl⟩
  | qFind p => exact .inr ⟨rfl, _, fun _ => rfl⟩

/-- What a step can do when it completes: nothing, one instruction, a reset, or attaching the Observer. -/
theorem step_next {s s' : State} (h : step s = .next s') :
    (s.pending = [] ∧ s' = s) ∨
      ∃ x rest, s.pending = x :: rest ∧
        ((∃ i, decodeInput s.params x = .ok (.instr i) ∧ exec i (takeInput rest s) = .next s') ∨
          (∃ e, decodeInput s.params x = .ok (.reset e) ∧ s' = resetInput e (takeInput rest s)) ∨
          (decodeInput s.params x = .ok .attach ∧ s' = attachObserver (takeInput rest s))) := by
  unfold step at h
  split at h
  · next hp =>
    cases h
    exact .inl ⟨hp, rfl⟩
  · next x rest hp =>
    refine .inr ⟨x, rest, hp, ?_⟩
    split at h
    · next c hd =>
      cases c with
      | instr i => exact .inl ⟨i, hd, h⟩
      | reset e => exact .inr (.inl ⟨e, hd, by cases h; rfl⟩)
      | attach => exact .inr (.inr ⟨hd, by cases h; rfl⟩)
    · cases h

/-- The scan of R193 answers the newest position that satisfies the predicate, or NOT_FOUND where none does. -/
theorem scanDown_found {f : Packet → Bool} {hist : List Packet} {i : Nat} {r : QueryResult}
    (h : scanDown f hist i = r) :
    (r = { status := .notFound, packet := none } ∧ ∀ j < i, (histAt hist j).any f = false) ∨
      ∃ j < i, r = foundAt hist j ∧ (histAt hist j).any f = true ∧
        ∀ l, j < l → l < i → (histAt hist l).any f = false := by
  induction i with
  | zero => exact .inl ⟨h.symm, by simp⟩
  | succ i ih =>
    unfold scanDown at h
    split at h
    · next hf => exact .inr ⟨i, by omega, h.symm, hf, fun l h₁ h₂ => by omega⟩
    · next hf =>
      have hf : (histAt hist i).any f = false := by simpa using hf
      obtain ⟨hr, hj⟩ | ⟨j, hj, hr, hm, hn⟩ := ih h
      · refine .inl ⟨hr, fun j hji => ?_⟩
        obtain rfl | hji := Nat.eq_or_lt_of_le (Nat.le_of_lt_succ hji)
        · exact hf
        · exact hj j hji
      · refine .inr ⟨j, by omega, hr, hm, fun l h₁ h₂ => ?_⟩
        obtain rfl | h₂ := Nat.eq_or_lt_of_le (Nat.le_of_lt_succ h₂)
        · exact hf
        · exact hn l h₁ h₂

end Sys2Proof.Machine
end

