-- ==== Sys2Proof/Laws/BitOrder.lean ====
section
/-! SUPPORT. Shifting in a value's bits, most significant first, gives the value back (spec/20_memory.md R54; spec/30_encoding.md R86). -/

namespace Sys2Proof.Machine

theorem shiftIn_bitLevel (acc : Nat) (b : Bool) : shiftIn acc (bitLevel b) = acc * 2 + b.toNat := by
  cases b <;> rfl

@[simp] theorem ninthBit_none : ninthBit none = .low := rfl
@[simp] theorem ninthBit_some (k : Level) : ninthBit (some k) = k := rfl

/-- One more bit of a number, read from the top. -/
theorem shift_next_bit (x i : Nat) : x / 2 ^ (i + 1) * 2 + x / 2 ^ i % 2 = x / 2 ^ i := by
  rw [Nat.pow_succ, ← Nat.div_div_eq_div_mul]
  omega

/-- The top bit of a number of `i + 1` bits, shifted into an empty accumulator. -/
theorem shift_top_bit {x i : Nat} (h : x < 2 ^ (i + 1)) : 0 * 2 + x / 2 ^ i % 2 = x / 2 ^ i := by
  have := shift_next_bit x i
  rwa [Nat.div_eq_of_lt h] at this

/-- The eight bits of a byte (R86). -/
theorem shift_byteBits (v : Byte) : (byteBits v).foldl shiftIn 0 = v.toNat := by
  simp only [byteBits, List.map, List.foldl, shiftIn_bitLevel, BitVec.getElem_eq_testBit_toNat,
    Nat.toNat_testBit]
  rw [shift_top_bit v.isLt, shift_next_bit, shift_next_bit, shift_next_bit, shift_next_bit,
    shift_next_bit, shift_next_bit, shift_next_bit]
  exact Nat.div_one _

/-- The seven bits of an address (R86). -/
theorem shift_addressBits (a : Address) : (addressBits a).foldl shiftIn 0 = a.toNat := by
  simp only [addressBits, List.map, List.foldl, shiftIn_bitLevel, BitVec.getElem_eq_testBit_toNat,
    Nat.toNat_testBit]
  rw [shift_top_bit a.isLt, shift_next_bit, shift_next_bit, shift_next_bit, shift_next_bit,
    shift_next_bit, shift_next_bit]
  exact Nat.div_one _

@[simp] theorem latchByte_toNat (v : Byte) : latchByte v.toNat = v := by
  simp [latchByte]

@[simp] theorem latchAddress_toNat (a : Address) : latchAddress a.toNat = a := by
  simp [latchAddress]

end Sys2Proof.Machine
end

