-- ==== Sys2Proof/Laws/BusBits.lean ====
section
/-! SUPPORT. What the events of one bus bit, and of a run of bits that emit nothing, do to an open parcel (spec/30_encoding.md R71;
spec/42_bit_sampling.md R131, R137). -/

namespace Sys2Proof.Machine

theorem execAll_append (is js : List Instr) (s : State) :
    execAll (is ++ js) s = andThen (execAll is s) (execAll js) := by
  induction is generalizing s with
  | nil => rfl
  | cons i is ih =>
    simp only [List.cons_append, execAll]
    cases exec i s <;> simp [andThen, ih]

theorem execAll_bitsEvents_append (bs cs : List Level) (s : State) :
    execAll (bitsEvents (bs ++ cs)) s =
      andThen (execAll (bitsEvents bs) s) (execAll (bitsEvents cs)) := by
  rw [bitsEvents, List.flatMap_append, ← bitsEvents, ← bitsEvents, execAll_append]

/-- A data event while the clock is low only records the level (R115, R116). -/
theorem lineStep_dat_low_clock (b : Level) (time : Nat) (s : State) (hc : s.clk = .low) :
    lineStep .dat b time s = .next { s with dat := b } := by
  simp [lineStep, classifyEvent, edgesOf, recordLevel, hc]

/-- The events of one bit are one bit sample of its level, between a rise and a fall of the clock (R92). -/
theorem execAll_bitEvents {b : Level} {s s' : State} {t : OpenTxn} (hc : s.clk = .low)
    (ht : s.txn = some t) (h : sampleInto t { s with dat := b, clk := .high } = .next s') :
    execAll (bitEvents b) s = .next { s' with clk := .low } := by
  have set_up := lineStep_dat_low_clock b 0 s hc
  have rise : lineStep .clk .high 0 { s with dat := b } = .next s' := by
    rw [← h]
    simp [lineStep, classifyEvent, edgesOf, recordLevel, classify, parcelOpen, State.par,
      bitSample, hc, ht]
  have fall : lineStep .clk .low 0 s' = .next { s' with clk := .low } := by
    simp [lineStep, classifyEvent, edgesOf, recordLevel, classify]
    cases s'.clk <;> simp
  rw [bitEvents, execAll, exec_eventInstr, set_up, andThen_next, execAll,
    show Instr.clkHi 0 = eventInstr .clk .high 0 from rfl, exec_eventInstr, rise, andThen_next,
    execAll, show Instr.clkLo 0 = eventInstr .clk .low 0 from rfl, exec_eventInstr, fall]
  rfl

/-- A run of bits that emit nothing is only accumulated and counted (R137). -/
theorem execAll_quiet_bits (bs : List Level) (s : State) (t : OpenTxn) (hc : s.clk = .low)
    (ht : s.txn = some t) (quiet : ∀ i < bs.length, emission (s.n + i + 1) = .none) :
    execAll (bitsEvents bs) s = .next { s with
      dat := bs.getLastD s.dat, acc := bs.foldl shiftIn s.acc, n := s.n + bs.length } := by
  induction bs generalizing s with
  | nil => rfl
  | cons b bs ih =>
    have sample : sampleInto t { s with dat := b, clk := .high } =
        .next { s with dat := b, clk := .high, acc := shiftIn s.acc b, n := s.n + 1 } := by
      have he := quiet 0 (by simp)
      simp only [sampleInto, Nat.add_zero] at he ⊢
      simp only [he]
    have rest := ih { s with dat := b, clk := .low, acc := shiftIn s.acc b, n := s.n + 1 } rfl ht
      fun i hi => by
        have := quiet (i + 1) (by simpa using hi)
        rwa [← Nat.add_assoc, Nat.add_right_comm s.n i 1] at this
    rw [bitsEvents, List.flatMap_cons, ← bitsEvents, execAll_append, execAll_bitEvents hc ht sample,
      andThen_next]
    refine rest.trans ?_
    simp only [List.getLastD_cons, List.foldl_cons, List.length_cons, hc, Nat.add_assoc,
      Nat.add_comm 1]

end Sys2Proof.Machine
end

