-- ==== Sys2Proof/Laws/Encoding.lean ====
section
/-! SUPPORT. The fields of an event word and of a query word read back what they were built from (spec/30_encoding.md R72, R78, R85). -/

namespace Sys2Proof

@[simp] theorem fitsWidth_none (v : Nat) : fitsWidth none v = true := rfl

theorem eventWord_fields (line : Line) (level : Level) (time : Nat) :
    eventLine (eventWord line level time) = line ∧
      eventLevel (eventWord line level time) = level ∧
      eventTime (eventWord line level time) = time := by
  cases line <;> cases level <;> refine ⟨?_, ?_, ?_⟩ <;>
    simp [eventLine, eventLevel, eventTime, bitAt, fieldFrom, eventWord, levelCode, lineCode] <;>
    omega

theorem queryWord_fields (op pidx : Nat) (h : op < 4) :
    queryOp (queryWord op pidx) = op ∧ queryIndex (queryWord op pidx) = pidx := by
  simp only [queryOp, queryIndex, queryWord, fieldFrom, Nat.reducePow]
  omega

/-- An event word is built of its own fields. -/
theorem eventWord_of_fields (w : Nat) :
    eventWord (eventLine w) (eventLevel w) (eventTime w) = w := by
  simp only [eventWord, eventLine, eventLevel, eventTime, bitAt, fieldFrom, Nat.pow_zero,
    Nat.pow_one, Nat.div_one, Nat.reducePow]
  split <;> split <;> simp only [levelCode, lineCode] <;> omega

end Sys2Proof
end

