-- ==== Sys2Proof/Laws/PerInstr.lean ====
section
/-! SUPPORT. Family `EncodeFits`: the word a well-formed instruction encodes to is a word of its port, with no bit above the width that
the parameters give (spec/30_encoding.md R72, R78). -/

namespace Sys2Proof.Laws.EncodeFits

/-- The encoded word of `i` fits its port for every parameter set for which `i` is well-formed. -/
def Statement (i : Instr) : Prop :=
  ∀ p : Params, i.wellFormed p = true → (encode i).fits p = true

/-- Two bits in front of a value of `k` bits make a word of `2 + k` bits. -/
theorem word_fits (w : Option Nat) (v low : Nat) (hlow : low < 4) (h : fitsWidth w v = true) :
    fitsWidth (w.map (2 + ·)) (v * 4 + low) = true := by
  cases w with
  | none => rfl
  | some k =>
    simp only [Option.map_some, fitsWidth, decide_eq_true_eq, Nat.pow_add] at h ⊢
    omega

theorem clkLo (t : Nat) : Statement (.clkLo t) := fun p h => word_fits p.tsW t 0 (by decide) h
theorem clkHi (t : Nat) : Statement (.clkHi t) := fun p h => word_fits p.tsW t 2 (by decide) h
theorem datLo (t : Nat) : Statement (.datLo t) := fun p h => word_fits p.tsW t 1 (by decide) h
theorem datHi (t : Nat) : Statement (.datHi t) := fun p h => word_fits p.tsW t 3 (by decide) h

theorem qLatest : Statement .qLatest := fun p _ =>
  word_fits p.predW 0 0 (by decide) (by cases h : p.predW <;> simp [fitsWidth])

theorem qSecondLatest : Statement .qSecondLatest := fun p _ =>
  word_fits p.predW 0 1 (by decide) (by cases h : p.predW <;> simp [fitsWidth])

theorem qFind (pidx : Nat) : Statement (.qFind pidx) := fun p h =>
  word_fits p.predW pidx 2 (by decide) h

end Sys2Proof.Laws.EncodeFits
end

