-- ==== Sys2Proof/Laws/State.lean ====
section
/-! SUPPORT. One lemma per field per update of the state, and of reset: no proof unfolds a record update. -/

namespace Sys2Proof.Machine

variable (s : State)

@[simp] theorem State.reset_clk : State.reset.clk = .high := rfl
@[simp] theorem State.reset_dat : State.reset.dat = .high := rfl
@[simp] theorem State.reset_txn : State.reset.txn = none := rfl
@[simp] theorem State.reset_acc : State.reset.acc = 0 := rfl
@[simp] theorem State.reset_n : State.reset.n = 0 := rfl
@[simp] theorem State.reset_epoch : State.reset.epoch = 0 := rfl
@[simp] theorem State.reset_hist : State.reset.hist = [] := rfl
@[simp] theorem State.reset_params : State.reset.params = Params.default := rfl
@[simp] theorem State.reset_pending : State.reset.pending = [] := rfl
@[simp] theorem State.reset_observer : State.reset.observer = false := rfl
@[simp] theorem State.reset_outputs : State.reset.outputs = [] := rfl
@[simp] theorem State.reset_observed : State.reset.observed = [] := rfl
@[simp] theorem State.reset_results : State.reset.results = [] := rfl

@[simp] theorem reply_clk (r : QueryResult) : (reply r s).clk = s.clk := rfl
@[simp] theorem reply_dat (r : QueryResult) : (reply r s).dat = s.dat := rfl
@[simp] theorem reply_txn (r : QueryResult) : (reply r s).txn = s.txn := rfl
@[simp] theorem reply_acc (r : QueryResult) : (reply r s).acc = s.acc := rfl
@[simp] theorem reply_n (r : QueryResult) : (reply r s).n = s.n := rfl
@[simp] theorem reply_epoch (r : QueryResult) : (reply r s).epoch = s.epoch := rfl
@[simp] theorem reply_hist (r : QueryResult) : (reply r s).hist = s.hist := rfl
@[simp] theorem reply_params (r : QueryResult) : (reply r s).params = s.params := rfl
@[simp] theorem reply_pending (r : QueryResult) : (reply r s).pending = s.pending := rfl
@[simp] theorem reply_observer (r : QueryResult) : (reply r s).observer = s.observer := rfl
@[simp] theorem reply_outputs (r : QueryResult) : (reply r s).outputs = s.outputs := rfl
@[simp] theorem reply_observed (r : QueryResult) : (reply r s).observed = s.observed := rfl
@[simp] theorem reply_results (r : QueryResult) : (reply r s).results = s.results ++ [r] := rfl

@[simp] theorem emitOut_clk (p : Packet) : (emitOut p s).clk = s.clk := rfl
@[simp] theorem emitOut_dat (p : Packet) : (emitOut p s).dat = s.dat := rfl
@[simp] theorem emitOut_txn (p : Packet) : (emitOut p s).txn = s.txn := rfl
@[simp] theorem emitOut_acc (p : Packet) : (emitOut p s).acc = s.acc := rfl
@[simp] theorem emitOut_n (p : Packet) : (emitOut p s).n = s.n := rfl
@[simp] theorem emitOut_epoch (p : Packet) : (emitOut p s).epoch = s.epoch := rfl
@[simp] theorem emitOut_hist (p : Packet) : (emitOut p s).hist = s.hist := rfl
@[simp] theorem emitOut_params (p : Packet) : (emitOut p s).params = s.params := rfl
@[simp] theorem emitOut_pending (p : Packet) : (emitOut p s).pending = s.pending := rfl
@[simp] theorem emitOut_observer (p : Packet) : (emitOut p s).observer = s.observer := rfl
@[simp] theorem emitOut_outputs (p : Packet) : (emitOut p s).outputs = s.outputs ++ [{ packet := p }] := rfl
@[simp] theorem emitOut_observed (p : Packet) :
    (emitOut p s).observed = if s.observer then s.observed ++ [{ packet := p }] else s.observed := rfl
@[simp] theorem emitOut_results (p : Packet) : (emitOut p s).results = s.results := rfl

@[simp] theorem takeInput_clk (rest : List PortWord) : (takeInput rest s).clk = s.clk := rfl
@[simp] theorem takeInput_dat (rest : List PortWord) : (takeInput rest s).dat = s.dat := rfl
@[simp] theorem takeInput_txn (rest : List PortWord) : (takeInput rest s).txn = s.txn := rfl
@[simp] theorem takeInput_acc (rest : List PortWord) : (takeInput rest s).acc = s.acc := rfl
@[simp] theorem takeInput_n (rest : List PortWord) : (takeInput rest s).n = s.n := rfl
@[simp] theorem takeInput_epoch (rest : List PortWord) : (takeInput rest s).epoch = s.epoch := rfl
@[simp] theorem takeInput_hist (rest : List PortWord) : (takeInput rest s).hist = s.hist := rfl
@[simp] theorem takeInput_params (rest : List PortWord) : (takeInput rest s).params = s.params := rfl
@[simp] theorem takeInput_pending (rest : List PortWord) : (takeInput rest s).pending = rest := rfl
@[simp] theorem takeInput_observer (rest : List PortWord) : (takeInput rest s).observer = s.observer := rfl
@[simp] theorem takeInput_outputs (rest : List PortWord) : (takeInput rest s).outputs = s.outputs := rfl
@[simp] theorem takeInput_observed (rest : List PortWord) : (takeInput rest s).observed = s.observed := rfl
@[simp] theorem takeInput_results (rest : List PortWord) : (takeInput rest s).results = s.results := rfl

@[simp] theorem attachObserver_clk : (attachObserver s).clk = s.clk := rfl
@[simp] theorem attachObserver_dat : (attachObserver s).dat = s.dat := rfl
@[simp] theorem attachObserver_txn : (attachObserver s).txn = s.txn := rfl
@[simp] theorem attachObserver_acc : (attachObserver s).acc = s.acc := rfl
@[simp] theorem attachObserver_n : (attachObserver s).n = s.n := rfl
@[simp] theorem attachObserver_epoch : (attachObserver s).epoch = s.epoch := rfl
@[simp] theorem attachObserver_hist : (attachObserver s).hist = s.hist := rfl
@[simp] theorem attachObserver_params : (attachObserver s).params = s.params := rfl
@[simp] theorem attachObserver_pending : (attachObserver s).pending = s.pending := rfl
@[simp] theorem attachObserver_observer : (attachObserver s).observer = true := rfl
@[simp] theorem attachObserver_outputs : (attachObserver s).outputs = s.outputs := rfl
@[simp] theorem attachObserver_observed : (attachObserver s).observed = s.observed := rfl
@[simp] theorem attachObserver_results : (attachObserver s).results = s.results := rfl

@[simp] theorem resetInput_clk (e : Nat) : (resetInput e s).clk = .high := rfl
@[simp] theorem resetInput_dat (e : Nat) : (resetInput e s).dat = .high := rfl
@[simp] theorem resetInput_txn (e : Nat) : (resetInput e s).txn = none := rfl
@[simp] theorem resetInput_acc (e : Nat) : (resetInput e s).acc = 0 := rfl
@[simp] theorem resetInput_n (e : Nat) : (resetInput e s).n = 0 := rfl
@[simp] theorem resetInput_epoch (e : Nat) : (resetInput e s).epoch = e := rfl
@[simp] theorem resetInput_hist (e : Nat) : (resetInput e s).hist = [] := rfl
@[simp] theorem resetInput_params (e : Nat) : (resetInput e s).params = s.params := rfl
@[simp] theorem resetInput_pending (e : Nat) : (resetInput e s).pending = s.pending := rfl
@[simp] theorem resetInput_observer (e : Nat) : (resetInput e s).observer = false := rfl
@[simp] theorem resetInput_outputs (e : Nat) : (resetInput e s).outputs = [] := rfl
@[simp] theorem resetInput_observed (e : Nat) : (resetInput e s).observed = [] := rfl
@[simp] theorem resetInput_results (e : Nat) : (resetInput e s).results = [] := rfl

@[simp] theorem recordLevel_clk_clk (v : Level) : (recordLevel .clk v s).clk = v := rfl
@[simp] theorem recordLevel_clk_dat (v : Level) : (recordLevel .clk v s).dat = s.dat := rfl
@[simp] theorem recordLevel_clk_txn (v : Level) : (recordLevel .clk v s).txn = s.txn := rfl
@[simp] theorem recordLevel_clk_acc (v : Level) : (recordLevel .clk v s).acc = s.acc := rfl
@[simp] theorem recordLevel_clk_n (v : Level) : (recordLevel .clk v s).n = s.n := rfl
@[simp] theorem recordLevel_clk_epoch (v : Level) : (recordLevel .clk v s).epoch = s.epoch := rfl
@[simp] theorem recordLevel_clk_hist (v : Level) : (recordLevel .clk v s).hist = s.hist := rfl
@[simp] theorem recordLevel_clk_params (v : Level) : (recordLevel .clk v s).params = s.params := rfl
@[simp] theorem recordLevel_clk_pending (v : Level) : (recordLevel .clk v s).pending = s.pending := rfl
@[simp] theorem recordLevel_clk_observer (v : Level) : (recordLevel .clk v s).observer = s.observer := rfl
@[simp] theorem recordLevel_clk_outputs (v : Level) : (recordLevel .clk v s).outputs = s.outputs := rfl
@[simp] theorem recordLevel_clk_observed (v : Level) : (recordLevel .clk v s).observed = s.observed := rfl
@[simp] theorem recordLevel_clk_results (v : Level) : (recordLevel .clk v s).results = s.results := rfl
@[simp] theorem recordLevel_dat_clk (v : Level) : (recordLevel .dat v s).clk = s.clk := rfl
@[simp] theorem recordLevel_dat_dat (v : Level) : (recordLevel .dat v s).dat = v := rfl
@[simp] theorem recordLevel_dat_txn (v : Level) : (recordLevel .dat v s).txn = s.txn := rfl
@[simp] theorem recordLevel_dat_acc (v : Level) : (recordLevel .dat v s).acc = s.acc := rfl
@[simp] theorem recordLevel_dat_n (v : Level) : (recordLevel .dat v s).n = s.n := rfl
@[simp] theorem recordLevel_dat_epoch (v : Level) : (recordLevel .dat v s).epoch = s.epoch := rfl
@[simp] theorem recordLevel_dat_hist (v : Level) : (recordLevel .dat v s).hist = s.hist := rfl
@[simp] theorem recordLevel_dat_params (v : Level) : (recordLevel .dat v s).params = s.params := rfl
@[simp] theorem recordLevel_dat_pending (v : Level) : (recordLevel .dat v s).pending = s.pending := rfl
@[simp] theorem recordLevel_dat_observer (v : Level) : (recordLevel .dat v s).observer = s.observer := rfl
@[simp] theorem recordLevel_dat_outputs (v : Level) : (recordLevel .dat v s).outputs = s.outputs := rfl
@[simp] theorem recordLevel_dat_observed (v : Level) : (recordLevel .dat v s).observed = s.observed := rfl
@[simp] theorem recordLevel_dat_results (v : Level) : (recordLevel .dat v s).results = s.results := rfl

@[simp] theorem State.withInput_pending (x : PortWord) :
    (s.withInput x).pending = x :: s.pending := rfl
@[simp] theorem State.withInput_params (x : PortWord) : (s.withInput x).params = s.params := rfl
@[simp] theorem takeInput_withInput (x : PortWord) : takeInput s.pending (s.withInput x) = s := rfl

end Sys2Proof.Machine
end

