-- ==== Sys2Proof/Machine/Rendering.lean ====
section
/-! DEFINITION. The spec's rendering of a Packet for test output (spec/44_packet_model.md R181). It is not normative: no rule of the
block produces or reads it (R180). -/

namespace Sys2Proof.Machine

/-- An upper-case hexadecimal digit. -/
def hexDigit (d : Nat) : Char :=
  if d < 10 then Char.ofNat (48 + d) else Char.ofNat (55 + d)

/-- Two upper-case hexadecimal digits. -/
def hexByte (v : Nat) : List Char := [hexDigit (v / 16), hexDigit (v % 16)]

/-- The direction letter, `?` where it is unset. -/
def renderDir : Option Dir → Char
  | some .write => 'W'
  | some .read => 'R'
  | none => '?'

/-- The address in hexadecimal, `??` where it is unset. -/
def renderAddress : Option Address → List Char
  | some a => hexByte a.toNat
  | none => ['?', '?']

/-- Texts joined by a separator. -/
def joinWith (sep : List Char) : List (List Char) → List Char
  | [] => []
  | [x] => x
  | x :: y :: rest => x ++ sep ++ joinWith sep (y :: rest)

/-- A Parcel as `D(AA) b0,b1,...` (R181). -/
def renderParcel (q : Parcel) : List Char :=
  [renderDir q.direction, '('] ++ renderAddress q.address ++ [')', ' '] ++
    joinWith [','] (q.data.map fun b => hexByte b.toNat)

/-- A Packet as its parcels joined by `, ` (R181). -/
def renderPacket (p : Packet) : List Char := joinWith [',', ' '] (p.parcels.map renderParcel)

end Sys2Proof.Machine
end

