-- ==== Sys2Proof/Tests/Slice0.lean ====
section
/-! SUPPORT. Tests from the spec's vectors (spec/95_test_vectors.md, ids in the comments), the refusals of WellFormed, and a witness for the
hypotheses of each statement of Certificates/Slice0/Obligations.lean. -/

namespace Sys2Proof.Tests

open Sys2Proof Sys2Proof.Machine

/-! ### Helpers -/

/-- The reset state with the line levels, the open transaction, the accumulator and the count given. -/
def bus (clk dat : Level) (txn : Option OpenTxn) (acc n : Nat) : State :=
  { State.reset with clk := clk, dat := dat, txn := txn, acc := acc, n := n }

/-- An open transaction. -/
def txnOf (done : List Parcel) (par : Parcel) : Option OpenTxn :=
  some { pkt := { parcels := done }, par := par }

def parcelW (a : Address) (bs : List Byte) : Parcel :=
  { address := some a, direction := some .write, data := bs }

def parcelR (a : Address) (bs : List Byte) : Parcel :=
  { address := some a, direction := some .read, data := bs }

/-- A parcel whose address is set and whose direction is not. -/
def parcelA (a : Address) : Parcel := { address := some a, direction := none, data := [] }

/-- Packets `A`, `B` and `C` of the query vectors: `A` and `C` are write packets, `B` a read packet. -/
def packetA : Packet := { timestamp := 1, parcels := [parcelW 0x48 [0x01]] }
def packetB : Packet := { timestamp := 2, parcels := [parcelW 0x48 [0x0F], parcelR 0x48 [0x12]] }
def packetC : Packet := { timestamp := 3, parcels := [parcelW 0x50 []] }

/-- `PRED(0) = isWrite`, `PRED(1) = isRead`, `PRED(3) = (λ p. false)`. -/
def queryParams : Params :=
  { Params.default with
    predW := some 2, preds := [(0, .isWrite), (1, .isRead), (3, .always false)] }

/-- The state of the query vectors with a given history. -/
def withHistory (hist : List Packet) : State := { State.reset with hist := hist, params := queryParams }

/-- A step ends in a state with a property. -/
def nextHas (r : Result) (f : State → Bool) : Bool :=
  match r with
  | .next s => f s
  | .fault _ => false
  | .refused _ => false

/-- A step ends in a fault. -/
def faultsWith (r : Result) (e : Fault) : Bool :=
  match r with
  | .next _ => false
  | .fault f => decide (f = e)
  | .refused _ => false

/-- A step ends in a refusal. -/
def refusesWith (r : Result) (e : Refusal) : Bool :=
  match r with
  | .next _ => false
  | .fault _ => false
  | .refused f => decide (f = e)

/-- The decoder reads an instruction. -/
def decodesTo (p : Params) (x : PortWord) (i : Instr) : Bool :=
  match decodeInput p x with
  | .ok c => decide (c = .instr i)
  | .error _ => false

/-- The decoder refuses. -/
def decodeRefuses (p : Params) (x : PortWord) (e : DecodeError) : Bool :=
  match decodeInput p x with
  | .ok _ => false
  | .error f => decide (f = e)

/-- Times of 8 bits, predicate indexes of 2 bits. -/
def narrow : Params := { Params.default with tsW := some 8, predW := some 2 }

/-! ### WellFormed refuses ill-formed terms -/

theorem test_wf_clkLo_time : (Instr.clkLo 256).wellFormed narrow = false := by decide
theorem test_wf_clkHi_time : (Instr.clkHi 256).wellFormed narrow = false := by decide
theorem test_wf_datLo_time : (Instr.datLo 256).wellFormed narrow = false := by decide
theorem test_wf_datHi_time : (Instr.datHi 256).wellFormed narrow = false := by decide
theorem test_wf_qFind_index : (Instr.qFind 4).wellFormed narrow = false := by decide
theorem test_fits_event : (PortWord.event 1024).fits narrow = false := by decide
theorem test_fits_query : (PortWord.query 16).fits narrow = false := by decide
theorem test_fits_reset : (PortWord.reset 256).fits narrow = false := by decide
theorem test_wf_histCap : ({ Params.default with histCap := some 1 } : Params).wf = false := by decide

/-! ### Decoding: words written out from the opcode maps (R76, R79) -/

/-- W1. -/
theorem test_decode_clkLo : decodesTo Params.default (.event 0b00) (.clkLo 0) = true := by decide
/-- W2, with time 1 in bits 2 and up. -/
theorem test_decode_clkHi : decodesTo Params.default (.event 0b110) (.clkHi 1) = true := by decide
/-- W5. -/
theorem test_decode_datLo : decodesTo Params.default (.event 0x191) (.datLo 100) = true := by decide
/-- W6. -/
theorem test_decode_datHi : decodesTo Params.default (.event 0x2AF) (.datHi 171) = true := by decide
/-- Q1. -/
theorem test_decode_qLatest : decodesTo Params.default (.query 0b00) .qLatest = true := by decide
/-- Q2. -/
theorem test_decode_qSecondLatest :
    decodesTo Params.default (.query 0b01) .qSecondLatest = true := by decide
/-- Q4. -/
theorem test_decode_qFind : decodesTo Params.default (.query 0b110) (.qFind 1) = true := by decide
/-- Q5. -/
theorem test_decode_op_reserved :
    decodeRefuses Params.default (.query 0b111) .reservedQuery = true := by decide
/-- Q6. -/
theorem test_decode_index_reserved :
    decodeRefuses Params.default (.query 0b101) .reservedQuery = true := by decide
/-- A number above the event words of the parameters is no word of the port. -/
theorem test_decode_too_wide :
    decodeRefuses narrow (.event 1024) .notAPortWord = true := by decide
/-- A table word is read on the event port and runs at the next step after reset. -/
theorem test_table_word : decodeTableWord 8 0b01 = some (.datLo 0) := by decide
theorem test_table_word_runs :
    nextHas (step (State.reset.withFetchWord 8 0b01))
      (fun s => decide (s.dat = .low ∧ s.par = some Parcel.empty ∧ s.pending = [])) = true := by decide

/-! ### Instructions -/

/-- N3. -/
theorem test_clkLo_fall :
    nextHas (exec (.clkLo 0) (bus .high .high (txnOf [] Parcel.empty) 5 3))
      (fun s => decide (s = bus .low .high (txnOf [] Parcel.empty) 5 3)) = true := by decide
/-- N4. -/
theorem test_clkLo_redundant :
    nextHas (exec (.clkLo 0) (bus .low .high (txnOf [] Parcel.empty) 5 3))
      (fun s => decide (s = bus .low .high (txnOf [] Parcel.empty) 5 3)) = true := by decide
/-- B2. -/
theorem test_clkHi_address :
    nextHas (exec (.clkHi 0) (bus .low .low (txnOf [] Parcel.empty) 0x24 6))
      (fun s => decide (s = bus .high .low (txnOf [] (parcelA 0x48)) 0 7)) = true := by decide
/-- B8. -/
theorem test_clkHi_second_byte :
    nextHas (exec (.clkHi 0) (bus .low .high (txnOf [] (parcelW 0x48 [0xFF])) 0x2A 25))
      (fun s => decide (s = bus .high .high (txnOf [] (parcelW 0x48 [0xFF, 0x55])) 0 26)) = true := by
  decide
/-- S-3: START in the middle of an address. -/
theorem test_datLo_repeated_start :
    nextHas (exec (.datLo 0) (bus .high .high (txnOf [] Parcel.empty) 5 4))
      (fun s => decide (s = bus .high .low (txnOf [Parcel.empty] Parcel.empty) 0 0)) = true := by decide
/-- S-8. -/
theorem test_datLo_parcels_full :
    faultsWith (exec (.datLo 0) { bus .high .high (txnOf [parcelW 0x48 [0x01]] Parcel.empty) 0 0 with
      params := { Params.default with maxParcels := some 1 } }) (.capacityExceeded .parcels) = true := by
  decide
/-- T7: a time before the epoch wraps with a finite `TS_W`; T4: the accumulator and the count are left. -/
theorem test_datHi_wrapped_stamp :
    nextHas (exec (.datHi 4) { bus .high .low (txnOf [] (parcelW 0x3C [0xFF])) 2 20 with
        epoch := 250, params := narrow })
      (fun s => decide (s.hist = [{ timestamp := 10, parcels := [parcelW 0x3C [0xFF]] }] ∧
        s.acc = 2 ∧ s.n = 20 ∧ s.txn = none ∧ s.dat = .high ∧ s.outputs.length = 1)) = true := by decide
/-- T9. -/
theorem test_datHi_evicts_oldest :
    nextHas (exec (.datHi 3) { bus .high .low (txnOf [] (parcelW 0x50 [])) 0 10 with
        hist := [packetA, packetB]
        params := { Params.default with histCap := some 2, histOverflow := .evictOldest } })
      (fun s => decide (s.hist = [packetB, packetC] ∧ s.outputs = [{ packet := packetC }])) = true := by
  decide
/-- H1. -/
theorem test_qLatest_empty :
    nextHas (exec .qLatest (withHistory []))
      (fun s => decide (s.results = [{ status := .emptyHistory, packet := none }])) = true := by decide
/-- H7. -/
theorem test_qLatest_newest :
    nextHas (exec .qLatest (withHistory [packetA, packetB, packetC]))
      (fun s => decide (s.results = [{ status := .found, packet := some packetC }])) = true := by decide
/-- H5. -/
theorem test_qSecondLatest_short :
    nextHas (exec .qSecondLatest (withHistory [packetA]))
      (fun s => decide (s.results = [{ status := .insufficientHistory, packet := none }])) = true := by
  decide
/-- H8. -/
theorem test_qSecondLatest_found :
    nextHas (exec .qSecondLatest (withHistory [packetA, packetB, packetC]))
      (fun s => decide (s.results = [{ status := .found, packet := some packetB }])) = true := by decide
/-- H9: two match, the newest wins. -/
theorem test_qFind_newest_wins :
    nextHas (exec (.qFind 0) (withHistory [packetA, packetB, packetC]))
      (fun s => decide (s.results = [{ status := .found, packet := some packetC }])) = true := by decide
/-- H11. -/
theorem test_qFind_none :
    nextHas (exec (.qFind 3) (withHistory [packetA, packetB, packetC]))
      (fun s => decide (s.results = [{ status := .notFound, packet := none }])) = true := by decide

/-! ### The packet model, the rendering and the assembler -/

/-- K2. -/
theorem test_register_of_read : register packetB = some 0x0F := by decide
/-- K8: three parcels are no read packet, so the payload comes from the first. -/
theorem test_payload_of_three :
    payload { timestamp := 0, parcels := [parcelW 0x48 [0x0F], parcelR 0x48 [0x12], parcelR 0x48 [0x34]] } =
      [] := by decide
/-- R181: the read packet of R171 renders as `W(48) 0F, R(48) 12,34`. -/
theorem test_render_read :
    renderPacket { timestamp := 0, parcels := [parcelW 0x48 [0x0F], parcelR 0x48 [0x12, 0x34]] } =
      ['W', '(', '4', '8', ')', ' ', '0', 'F', ',', ' ', 'R', '(', '4', '8', ')', ' ', '1', '2', ',', '3', '4'] :=
  by decide
/-- Program P4, its first three lines. -/
theorem test_assemble :
    assemble [.stop, .event .clk .high none, .start] =
      some [.reset 0, .event 0x0, .event 0x5, .event 0xa, .event 0xf, .event 0x12, .event 0x15, .event 0x18] := by
  decide

/-- Program P3: `ADDR 0x50, W` without `k` (R93). -/
theorem test_assemble_addr_default :
    (asmLine (.addr 0x50 .write none) { time := 12, clk := .low, dat := .low, out := [] }).map
        AsmState.out =
      some ([0x33, 0x36, 0x38, 0x3d, 0x42, 0x44, 0x4b, 0x4e, 0x50, 0x55, 0x5a, 0x5c, 0x62, 0x64, 0x6a, 0x6c,
        0x72, 0x74, 0x7a, 0x7c, 0x82, 0x84].map PortWord.event) := by decide
/-- Program P2: `BYTE 0x0F` without `k`, and `BYTE 0x34, 1` with it (R94). -/
theorem test_assemble_byte :
    (asmLine (.byte 0x0F none) { time := 24, clk := .low, dat := .low, out := [] }).map AsmState.out =
      some ([0x62, 0x64, 0x6a, 0x6c, 0x72, 0x74, 0x7a, 0x7c, 0x83, 0x86, 0x88, 0x8e, 0x90, 0x96, 0x98, 0x9e,
        0xa0, 0xa5, 0xaa, 0xac].map PortWord.event) ∧
    (asmLine (.byte 0x34 (some .high)) { time := 94, clk := .low, dat := .low, out := [] }).map
        AsmState.out =
      some ([0x17a, 0x17c, 0x182, 0x184, 0x18b, 0x18e, 0x190, 0x196, 0x198, 0x19d, 0x1a2, 0x1a4, 0x1ab, 0x1ae,
        0x1b0, 0x1b5, 0x1ba, 0x1bc, 0x1c2, 0x1c4, 0x1cb, 0x1ce, 0x1d0].map PortWord.event) := by decide

/-! ### Witnesses: a state and operands that meet a statement's hypotheses, named after the statement -/

theorem witness_DecodeOfEncode : (Instr.datHi 255).wellFormed narrow = true := by decide
theorem witness_EncodeOfDecode : decodeInput narrow (.event 1023) = .ok (.instr (.datHi 255)) := rfl
theorem witness_EncodeOfDecode_query : decodeInput narrow (.query 14) = .ok (.instr (.qFind 3)) := rfl
theorem witness_EveryEventWordIsLegal : PortWord.fits narrow (.event 1023) = true := by decide
theorem witness_QueryWordsByOpcode :
    (2 : Nat) < 4 ∧ PortWord.fits narrow (.query (3 * 4 + 2)) = true := by decide

/-- Reset with inputs queued. -/
def queued (xs : List PortWord) : State := { State.reset with pending := xs }

theorem witness_ReservedQueryRefused_op :
    (3 : Nat) < 4 ∧ PortWord.fits (queued [.query 3]).params (.query (0 * 4 + 3)) = true ∧
      (queued [.query 3]).pending = .query (0 * 4 + 3) :: [] := by decide
theorem witness_ReservedQueryRefused_index :
    (1 : Nat) < 4 ∧ PortWord.fits (queued [.query 5]).params (.query (1 * 4 + 1)) = true ∧
      ((1 : Nat) ≤ 1 ∧ (1 : Nat) ≠ 0) ∧ (queued [.query 5]).pending = .query (1 * 4 + 1) :: [] := by decide
theorem witness_StepRunsDecodedInput :
    (queued [.event 1]).pending = .event 1 :: [] ∧
      decodeInput (queued [.event 1]).params (.event 1) = .ok (.instr (.datLo 0)) := ⟨rfl, rfl⟩
theorem witness_IdleHoldsEveryField : (bus .low .high (txnOf [] Parcel.empty) 5 3).pending = [] := by
  decide
theorem witness_ResetInputGivesResetValues :
    (queued [.reset 7, .event 1]).pending = .reset 7 :: [.event 1] ∧
      fitsWidth (queued [.reset 7, .event 1]).params.tsW 7 = true := by decide
theorem witness_AttachOnlySetsObserver : (queued [.attach]).pending = .attach :: [] := by decide

/-- Three bits of an address, the clock low (the start state of N1 to N8). -/
def midAddress : State := bus .low .high (txnOf [] Parcel.empty) 5 3

theorem witness_LineRegistersFollowEvents :
    exec (eventInstr .clk .high 0) midAddress =
        .next (bus .high .high (txnOf [] Parcel.empty) 11 4) ∧
      exec (eventInstr .dat .low 0) midAddress =
        .next (bus .low .low (txnOf [] Parcel.empty) 5 3) := ⟨rfl, rfl⟩
theorem witness_RepeatedEventIsIdempotent :
    exec (eventInstr .clk .high 0) midAddress =
      .next (bus .high .high (txnOf [] Parcel.empty) 11 4) := rfl
theorem witness_EventsFollowTheStep :
    classifyEvent .clk .high midAddress =
      ({ clk := .rising, dat := .steady }, { midAddress with clk := .high }) := rfl
theorem witness_OtherEventsOnlyRecordTheLevel :
    ¬ (ClockRise .dat .low midAddress ∧ midAddress.par ≠ none) ∧
      ¬ StartCondition .dat .low midAddress ∧
      ¬ (StopCondition .dat .low midAddress ∧ midAddress.par ≠ none) := by decide
theorem witness_ClkLoOnlyRecordsTheLevel :
    State.reset.clk = .high ∧ midAddress.clk = .low := by decide
theorem witness_ClkHiSamplesOnARise :
    ((bus .low .high none 0 0).clk = .low ∧ (bus .low .high none 0 0).par = none) ∧
      (midAddress.clk = .low ∧ midAddress.par ≠ none) ∧ State.reset.clk = .high := by decide

/-- The hypotheses of `BitSampleByCount` that all its clauses share. -/
def sampled (s : State) (t : OpenTxn) (a m : Nat) (k : Int) : Prop :=
  s.clk = .low ∧ s.txn = some t ∧ a = s.acc * 2 + (if s.dat = .high then 1 else 0) ∧
    m = s.n + 1 ∧ k = ((m : Int) - 10) % 9 + 1

theorem witness_BitSampleByCount_address :
    sampled (bus .low .high (txnOf [] Parcel.empty) 63 6) ⟨⟨[]⟩, Parcel.empty⟩ 127 7 7 ∧
      (127 : Address).toNat = 127 := by unfold sampled; decide
theorem witness_BitSampleByCount_direction :
    sampled (bus .low .high (txnOf [] (parcelA 0x48)) 0 7) ⟨⟨[]⟩, parcelA 0x48⟩ 1 8 8 := by
  unfold sampled; decide
theorem witness_BitSampleByCount_data :
    sampled (bus .low .high (txnOf [] (parcelW 0x48 [])) 127 16) ⟨⟨[]⟩, parcelW 0x48 []⟩ 255 17 8 ∧
      (8 : Nat) < 17 ∧ Params.default.maxData ≠ some 0 ∧ (255 : Byte).toNat = 255 := by
  unfold sampled; decide
theorem witness_BitSampleByCount_ack :
    sampled (bus .low .high (txnOf [] (parcelW 0x48 [])) 0 8) ⟨⟨[]⟩, parcelW 0x48 []⟩ 1 9 9 ∧
      (8 : Nat) < 9 := by unfold sampled; decide
theorem witness_BitSampleByCount_none :
    sampled (bus .low .low (txnOf [] Parcel.empty) 0 0) ⟨⟨[]⟩, Parcel.empty⟩ 0 1 1 ∧ (1 : Nat) < 7 ∧
      sampled (bus .low .low (txnOf [] (parcelW 0x48 [])) 0 9) ⟨⟨[]⟩, parcelW 0x48 []⟩ 0 10 1 ∧
      (8 : Nat) < 10 ∧ (1 : Int) ≠ 8 ∧ (1 : Int) ≠ 9 := by unfold sampled; decide

/-- B9: the second byte of a parcel that may hold one. -/
def fullParcel : State :=
  { bus .low .high (txnOf [] (parcelW 0x48 [0xFF])) 0x2A 25 with
    params := { Params.default with maxData := some 1 } }

theorem witness_DataCapacityFault :
    fullParcel.clk = .low ∧ fullParcel.txn = some ⟨⟨[]⟩, parcelW 0x48 [0xFF]⟩ ∧ 8 < fullParcel.n + 1 ∧
      (((fullParcel.n + 1 : Nat) : Int) - 10) % 9 + 1 = 8 ∧
      fullParcel.params.maxData = some (parcelW 0x48 [0xFF]).data.length := by decide
theorem witness_AcknowledgmentIsDiscarded :
    let s := bus .low .low (txnOf [] (parcelW 0x48 [])) 0 8
    s.clk = .low ∧ s.par ≠ none ∧ 8 < s.n + 1 ∧ (((s.n + 1 : Nat) : Int) - 10) % 9 + 1 = 9 := by decide
theorem witness_DatLoStartsOnAFall :
    (State.reset.dat = .high ∧ State.reset.clk = .high) ∧
      (midAddress.dat = .high ∧ midAddress.clk = .low) ∧ (bus .high .low none 0 0).dat = .low := by decide

/-- An open packet with one attached parcel, both lines high. -/
def openHigh (cap : Option Nat) : State :=
  { bus .high .high (txnOf [parcelW 0x48 []] Parcel.empty) 0 0 with
    params := { Params.default with maxParcels := cap } }

theorem witness_StartOpensOrAttaches_first :
    State.reset.clk = .high ∧ State.reset.dat = .high ∧ State.reset.txn = none := by decide
theorem witness_StartOpensOrAttaches_room :
    (openHigh (some 2)).clk = .high ∧ (openHigh (some 2)).dat = .high ∧
      (openHigh (some 2)).txn = some ⟨⟨[parcelW 0x48 []]⟩, Parcel.empty⟩ ∧
      (openHigh (some 2)).params.maxParcels ≠ some [parcelW 0x48 []].length := by decide
theorem witness_StartOpensOrAttaches_full :
    (openHigh (some 1)).txn = some ⟨⟨[parcelW 0x48 []]⟩, Parcel.empty⟩ ∧
      (openHigh (some 1)).params.maxParcels = some [parcelW 0x48 []].length := by decide

/-- A STOP about to close the packet `C` (T9, T10). -/
def stopping (p : Params) (hist : List Packet) : State :=
  { bus .high .low (txnOf [] (parcelW 0x50 [])) 0 10 with hist := hist, params := p }

theorem witness_DatHiStopsOnARise :
    ((stopping Params.default []).dat = .low ∧ (stopping Params.default []).clk = .high ∧
        (stopping Params.default []).par ≠ none) ∧
      ((bus .high .low none 0 0).dat = .low ∧ (bus .high .low none 0 0).par = none) ∧
      ((bus .low .low (txnOf [] Parcel.empty) 0 0).dat = .low ∧
        (bus .low .low (txnOf [] Parcel.empty) 0 0).clk = .low) ∧
      State.reset.dat = .high := by decide
theorem witness_StopClosesThePacket :
    let s := stopping Params.default []
    s.clk = .high ∧ s.dat = .low ∧ s.txn = some ⟨⟨[]⟩, parcelW 0x50 []⟩ ∧
      s.params.maxParcels ≠ some 0 ∧ s.params.histCap ≠ some s.hist.length ∧
      packetC.parcels = [] ++ [parcelW 0x50 []] ∧ s.params.tsW = none ∧
      packetC.timestamp = ((3 : Nat) : Int) - (s.epoch : Int) := by decide
theorem witness_StopClosesThePacket_finite :
    let s := stopping narrow []
    s.params.tsW = some 8 ∧ 0 ≤ packetC.timestamp ∧ packetC.timestamp < 2 ^ 8 ∧
      ((2 ^ 8 : Int)) ∣ ((259 : Nat) : Int) - (s.epoch : Int) - packetC.timestamp := by decide
theorem witness_StopAtACapacity :
    let full := stopping { Params.default with histCap := some 2 } [packetA, packetB]
    full.clk = .high ∧ full.dat = .low ∧ full.txn = some ⟨⟨[]⟩, parcelW 0x50 []⟩ ∧
      full.params.maxParcels ≠ some 0 ∧ full.params.histCap = some full.hist.length ∧
      full.params.histOverflow = .fault ∧
      (stopping { Params.default with maxParcels := some 0 } []).params.maxParcels = some 0 := by decide
theorem witness_StopAtACapacity_evict :
    let full := stopping { Params.default with histCap := some 2, histOverflow := .evictOldest }
      [packetA, packetB]
    full.clk = .high ∧ full.dat = .low ∧ full.txn = some ⟨⟨[]⟩, parcelW 0x50 []⟩ ∧
      full.params.maxParcels ≠ some 0 ∧ full.params.histCap = some full.hist.length ∧
      full.params.histOverflow = .evictOldest ∧ packetC.parcels = [] ++ [parcelW 0x50 []] ∧
      full.params.tsW = none ∧ packetC.timestamp = ((3 : Nat) : Int) - (full.epoch : Int) := by decide
theorem witness_StopAtACapacity_evict_finite :
    let full := stopping { narrow with histCap := some 1, histOverflow := .evictOldest } [packetA]
    full.params.maxParcels ≠ some 0 ∧ full.params.histCap = some full.hist.length ∧
      full.params.tsW = some 8 ∧ 0 ≤ packetC.timestamp ∧ packetC.timestamp < 2 ^ 8 ∧
      ((2 ^ 8 : Int)) ∣ ((259 : Nat) : Int) - (full.epoch : Int) - packetC.timestamp := by decide
theorem witness_TimeMattersOnlyToStop :
    ¬ (StopCondition .clk .high midAddress ∧ midAddress.par ≠ none) := by decide
theorem witness_PacketStateMachine :
    exec (eventInstr .dat .low 0) State.reset =
      .next (bus .high .low (txnOf [] Parcel.empty) 0 0) := rfl
theorem witness_AddressGroupIsLatched :
    let s := bus .low .low (txnOf [] Parcel.empty) 0 0
    s.clk = .low ∧ s.txn = some ⟨⟨[]⟩, Parcel.empty⟩ ∧ s.n = 0 ∧ s.acc = 0 := by decide
theorem witness_ByteGroupIsAppended :
    let s := bus .low .low (txnOf [] (parcelW 0x48 [])) 0 9
    (1 : Nat) ≤ 1 ∧ s.clk = .low ∧ s.txn = some ⟨⟨[]⟩, parcelW 0x48 []⟩ ∧ s.n = 9 * 1 ∧ s.acc = 0 ∧
      s.params.maxData ≠ some 0 := by decide

theorem unbounded_default : Unbounded Params.default := ⟨rfl, rfl, rfl⟩

theorem witness_TransactionDecodesToItsPacket :
    Unbounded State.reset.params ∧ State.reset.params.tsW = none ∧ State.reset.clk = .high ∧
      State.reset.dat = .high ∧ State.reset.txn = none := ⟨unbounded_default, rfl, rfl, rfl, rfl⟩

/-- A parcel whose address is complete, with one bit to come before the direction. -/
def addressed : State := bus .low .high (txnOf [] (parcelA 0x48)) 0 7

theorem witness_inv : Inv addressed where
  params := rfl
  acc := by decide
  stage := by
    rintro _ ⟨⟩
    exact ⟨by decide, by decide, by decide⟩
  parSize := by
    rintro _ ⟨⟩ c hc
    cases hc
  attached := by
    rintro _ ⟨⟩
    exact ⟨by simp, by simp, by rintro c hc; cases hc⟩
  stored := by
    intro k hk
    cases hk
  histSize := by
    rintro c hc
    cases hc
  history := by decide

theorem witness_StepKeepsTheInvariant : Inv addressed ∧ step addressed = .next addressed :=
  ⟨witness_inv, rfl⟩

/-- The state the direction bit leaves. -/
def directed : State := bus .high .high (txnOf [] (parcelR 0x48 [])) 0 8

theorem witness_StepKeepsTheInvariant_sample :
    step { addressed with pending := [.event 2] } = .next directed := rfl
theorem witness_AccumulatorLosesNothing :
    Inv addressed ∧ emission (addressed.n + 1) = .dir := ⟨witness_inv, by decide⟩
theorem witness_AddressAndDirectionAreSetOnce :
    Inv addressed ∧ exec (.clkHi 0) addressed = .next directed ∧
      addressed.txn = some ⟨⟨[]⟩, parcelA 0x48⟩ ∧ directed.txn = some ⟨⟨[]⟩, parcelR 0x48 []⟩ ∧
      (parcelA 0x48).address = some 0x48 := ⟨witness_inv, rfl, rfl, rfl, rfl⟩
theorem witness_AttachedParcelsNeverChange :
    exec (.datLo 0) (openHigh none) =
        .next (bus .high .low (txnOf [parcelW 0x48 [], Parcel.empty] Parcel.empty) 0 0) ∧
      (openHigh none).txn = some ⟨⟨[parcelW 0x48 []]⟩, Parcel.empty⟩ := ⟨rfl, rfl⟩

/-- The state a STOP at time 3 leaves. -/
def stopped : State :=
  { stopping Params.default [] with
    dat := .high, txn := none, hist := [packetC], outputs := [{ packet := packetC }] }

theorem witness_OnlyStopWritesHistory :
    exec (.datHi 3) (stopping Params.default []) = .next stopped := rfl
theorem witness_HistoryIsTheOutputs :
    stopped.params.histCap = none ∧ stopped.hist = stopped.outputs.map OutRecord.packet ∧
      step stopped = .next stopped := ⟨rfl, rfl, rfl⟩
theorem witness_EpochAndParametersAreFixed :
    exec .qLatest (withHistory []) =
      .next { withHistory [] with results := [{ status := .emptyHistory, packet := none }] } := rfl
theorem witness_UnboundedBlockNeverStops : Unbounded State.reset.params := unbounded_default
theorem witness_FaultsOnlyAtAFiniteCapacity :
    exec (.clkHi 0) fullParcel = .fault (.capacityExceeded .data) := rfl
theorem witness_QLatestAnswersTheNewest :
    (withHistory []).hist = [] ∧ (withHistory [packetA, packetB]).hist = [packetA] ++ [packetB] := by
  decide
theorem witness_QSecondLatestAnswersTheOneBefore :
    (withHistory [packetA]).hist.length < 2 ∧
      (withHistory [packetA, packetB]).hist = [] ++ [packetA, packetB] := by decide
theorem witness_QFindAnswersTheNewestMatch_none :
    ∀ k ∈ (withHistory [packetA, packetB]).hist, predicate queryParams 3 k = false := by decide
theorem witness_QFindAnswersTheNewestMatch_found :
    (withHistory [packetA, packetB, packetC]).hist = [packetA] ++ packetB :: [packetC] ∧
      predicate queryParams 1 packetB = true ∧
      (∀ k ∈ [packetC], predicate queryParams 1 k = false) := by decide
theorem witness_QueriesChangeNothing : (Instr.qFind 5).isQuery = true := by decide
theorem witness_TruePredicateFindsTheLatest :
    [packetA, packetC] ≠ [] ∧ ∀ k ∈ [packetA, packetC], isWrite k = true := by decide
theorem witness_LatestAfterStopIsThePacketOutput :
    exec (.datHi 3) (stopping Params.default []) = .next stopped ∧
      stopped.outputs = (stopping Params.default []).outputs ++ [{ packet := packetC }] := ⟨rfl, rfl⟩
theorem witness_RegisterIsTheFirstByte :
    packetA.parcels = parcelW 0x48 [0x01] :: [] ∧ (parcelW 0x48 [0x01]).data = 0x01 :: [] ∧
      packetC.parcels = parcelW 0x50 [] :: [] ∧ (parcelW 0x50 []).data = [] := by decide
theorem witness_PayloadOfAPacket :
    packetB.parcels = parcelW 0x48 [0x0F] :: [parcelR 0x48 [0x12]] ∧ isRead packetB = true ∧
      packetA.parcels = parcelW 0x48 [0x01] :: [] ∧ isRead packetA = false := by decide

end Sys2Proof.Tests
end

section
/-! SUPPORT and PROOFS for the family `10_state.md`. First a layer of lemmas on what the shared operations do to a capacity, to the
open parcel and to `Inv`; then what an instruction that completes can have done (`Effect`); last the statements, each a case split over
`Effect` or over `step_next`. -/

namespace Sys2Proof.Machine

/-! ### Steps -/

/-- A step whose input decodes runs the command on the state without that input. -/
theorem step_of_decode {s : State} {x : PortWord} {rest : List PortWord} {c : Command}
    (hp : s.pending = x :: rest) (hd : decodeInput s.params x = .ok c) :
    step s = runCommand c (takeInput rest s) := by
  unfold step
  simp only [hp, hd]

theorem decodeInput_reset {p : Params} {e : Nat} (h : fitsWidth p.tsW e = true) :
    decodeInput p (.reset e) = .ok (.reset e) := if_pos h

/-! ### Capacities -/

/-- Below its capacity, a sequence within it has room for one more element. -/
theorem Within.succ {cap : Option Nat} {len : Nat} (h : Within cap len)
    (room : atCapacity cap len = false) : Within cap (len + 1) := by
  intro c hc
  have hle : len ≤ c := h c hc
  have hne : len ≠ c := fun he => by simp [hc, he, atCapacity] at room
  omega

theorem within_zero (cap : Option Nat) : Within cap 0 := fun c _ => Nat.zero_le c

/-- A full history that evicts its oldest packet is as long as before (R52, R199): an admitted capacity is not 0. -/
theorem within_evicted {p : Params} {hist : List Packet} (wf : p.wf = true)
    (full : atCapacity p.histCap hist.length = true) (k : Packet) :
    Within p.histCap (hist.tail ++ [k]).length := by
  intro c hc
  simp only [hc, atCapacity_some] at full
  have h2 : 2 ≤ c := by simpa [Params.wf, hc] using wf
  simp only [List.length_append, List.length_tail, List.length_singleton]
  omega

/-- A timestamp of a finite width is a residue (R158). -/
theorem timeDiff_range (k t epoch : Nat) :
    0 ≤ timeDiff (some k) t epoch ∧ timeDiff (some k) t epoch < ((2 ^ k : Nat) : Int) := by
  have pos : (0 : Int) < ((2 ^ k : Nat) : Int) := by exact_mod_cast Nat.two_pow_pos k
  exact ⟨Int.emod_nonneg _ pos.ne', Int.emod_lt_of_pos _ pos⟩

/-! ### Recording a level -/

@[simp] theorem recordLevel_txn (line : Line) (v : Level) (s : State) :
    (recordLevel line v s).txn = s.txn := by cases line <;> rfl

@[simp] theorem recordLevel_hist (line : Line) (v : Level) (s : State) :
    (recordLevel line v s).hist = s.hist := by cases line <;> rfl

@[simp] theorem recordLevel_outputs (line : Line) (v : Level) (s : State) :
    (recordLevel line v s).outputs = s.outputs := by cases line <;> rfl

@[simp] theorem recordLevel_observed (line : Line) (v : Level) (s : State) :
    (recordLevel line v s).observed = s.observed := by cases line <;> rfl

/-! ### The accumulator and the open parcel -/

theorem shiftIn_lt {acc k : Nat} (h : acc < 2 ^ k) (d : Level) : shiftIn acc d < 2 ^ (k + 1) := by
  rw [Nat.pow_succ]
  cases d <;> simp only [shiftIn, levelBit] <;> omega

/-- A bit that emits nothing stays in the accumulator (R137, R139). -/
theorem bitsHeld_succ_of_emission_none {n : Nat} (h : emission (n + 1) = .none) :
    bitsHeld (n + 1) = bitsHeld n + 1 := by
  have hn := emission_none.mp h
  unfold bitsHeld
  split_ifs <;> omega

theorem parcelStage_empty : ParcelStage 0 Parcel.empty where
  address := by decide
  direction := by decide
  data := rfl

/-- The stages come in bus order (R141). -/
theorem ParcelStage.inBusOrder {n : Nat} {q : Parcel} (h : ParcelStage n q) : InBusOrder q where
  direction hd := h.address.mpr (by have := h.direction.mp hd; omega)
  data hne := by
    have pos : 0 < q.data.length := List.length_pos_of_ne_nil hne
    rw [h.data] at pos
    exact h.direction.mpr (by omega)

/-- What a later moment of an open parcel keeps of an earlier one (R36). -/
structure ParcelExtends (q q' : Parcel) : Prop where
  address   : ∀ a, q.address = some a → q'.address = some a
  direction : ∀ d, q.direction = some d → q'.direction = some d
  data      : q.data <+: q'.data

theorem ParcelExtends.refl (q : Parcel) : ParcelExtends q q :=
  ⟨fun _ h => h, fun _ h => h, List.prefix_rfl⟩

section OpenTransaction
variable {t : OpenTxn} {s s' : State}

/-- A completed bit sample writes the bit count, the accumulator and the open parcel only (R131, R138). -/
theorem sampleInto_frame (ht : s.txn = some t) (h : sampleInto t s = .next s') :
    ∃ acc par, s' = { s with n := s.n + 1, acc := acc, txn := some { t with par := par } } := by
  obtain ⟨acc, par, hs, -⟩ := sampleInto_next ht h
  exact ⟨acc, par, hs⟩

/-- The accumulator holds only the bits sampled since the last emission (R139). -/
theorem sampleInto_acc_lt (ht : s.txn = some t) (hacc : s.acc < 2 ^ bitsHeld s.n)
    (h : sampleInto t s = .next s') : s'.acc < 2 ^ bitsHeld s'.n := by
  obtain ⟨acc, par, rfl, ⟨-, rfl, -⟩ | ⟨-, rfl, -⟩ | ⟨-, rfl, -⟩ | ⟨-, rfl, -⟩ | ⟨he, rfl, -⟩⟩ :=
    sampleInto_next ht h
  case inr.inr.inr.inr =>
    simp only [bitsHeld_succ_of_emission_none he]
    exact shiftIn_lt hacc s.dat
  all_goals exact Nat.two_pow_pos _

/-- Each emission sets the one part of the open parcel that is due at the new count, so the parcel comes to the stage of
that count (R132 to R137). -/
theorem sampleInto_stage (ht : s.txn = some t) (stage : ParcelStage s.n t.par)
    (h : sampleInto t s = .next s') : ∀ t', s'.txn = some t' → ParcelStage s'.n t'.par := by
  obtain ⟨haddr, hdir, hdata⟩ := stage
  obtain ⟨acc, par, rfl, hcase⟩ := sampleInto_next ht h
  rintro _ ⟨⟩
  simp only [emission_addr, emission_dir, emission_data, emission_ack, emission_none] at hcase
  obtain ⟨hn, -, rfl⟩ | ⟨hn, -, rfl⟩ | ⟨hn, -, -, rfl⟩ | ⟨hn, -, rfl⟩ | ⟨hn, -, rfl⟩ := hcase
  all_goals constructor <;> simp [haddr, hdir, hdata] <;> omega

/-- A byte is appended only where `MAX_DATA` leaves room (R135, R143). -/
theorem sampleInto_parSize (ht : s.txn = some t) (size : Within s.params.maxData t.par.data.length)
    (h : sampleInto t s = .next s') :
    ∀ t', s'.txn = some t' → Within s.params.maxData t'.par.data.length := by
  obtain ⟨acc, par, rfl, ⟨-, -, rfl⟩ | ⟨-, -, rfl⟩ | ⟨-, -, room, rfl⟩ | ⟨-, -, rfl⟩ | ⟨-, -, rfl⟩⟩ :=
    sampleInto_next ht h
  all_goals rintro _ ⟨⟩
  case inr.inr.inl => simpa using size.succ room
  all_goals exact size

/-- At the counts 7 and 8 that set the address and the direction, neither was set before (R36). -/
theorem sampleInto_extends (ht : s.txn = some t) (stage : ParcelStage s.n t.par)
    (h : sampleInto t s = .next s') : ∀ t', s'.txn = some t' → ParcelExtends t.par t'.par := by
  obtain ⟨acc, par, rfl, ⟨he, -, rfl⟩ | ⟨he, -, rfl⟩ | ⟨-, -, -, rfl⟩ | ⟨-, -, rfl⟩ | ⟨-, -, rfl⟩⟩ :=
    sampleInto_next ht h
  all_goals rintro _ ⟨⟩
  · refine ⟨fun a ha => ?_, fun _ hd => hd, List.prefix_rfl⟩
    have hn := stage.address.mp (by simp [ha])
    have hn' := emission_addr.mp he
    omega
  · refine ⟨fun _ ha => ha, fun d hd => ?_, List.prefix_rfl⟩
    have hn := stage.direction.mp (by simp [hd])
    have hn' := emission_dir.mp he
    omega
  · exact ⟨fun _ ha => ha, fun _ hd => hd, List.prefix_append _ _⟩
  · exact ParcelExtends.refl _
  · exact ParcelExtends.refl _

/-- A START with a transaction open attaches its parcel and begins a new one (R153). -/
theorem startAction_txn_of_open (ht : s.txn = some t) (h : startAction s = .next s') :
    s'.txn = some { pkt := { parcels := t.pkt.parcels ++ [t.par] }, par := Parcel.empty } := by
  obtain ⟨qs, rfl, ⟨hu, -⟩ | ⟨u, hu, rfl, -⟩⟩ := startAction_next h
  · simp [ht] at hu
  · rw [ht, Option.some.injEq] at hu
    rw [hu]

end OpenTransaction

/-! ### What an instruction can do -/

/-- What an instruction that completes did to the state, with the guard of each case (R110, R195). `exec_effect` ties it to `exec`. -/
inductive Effect (s s' : State) : Instr → Prop
  /-- A query only replies (R195). -/
  | query {i : Instr} (r : QueryResult) (isQuery : i.isQuery = true) (next : s' = reply r s) :
      Effect s s' i
  /-- An event only records its level (R112). -/
  | record (line : Line) (level : Level) (time : Nat) (next : s' = recordLevel line level s) :
      Effect s s' (eventInstr line level time)
  /-- A rising clock samples a bit into the open transaction (R130). -/
  | sample (t : OpenTxn) (time : Nat) (clk : s.clk = .low) (txn : s.txn = some t)
      (next : sampleInto t (recordLevel .clk .high s) = .next s') : Effect s s' (.clkHi time)
  /-- A falling data line while the clock is high is a START (R150). -/
  | start (time : Nat) (clk : s.clk = .high) (dat : s.dat = .high)
      (next : startAction (recordLevel .dat .low s) = .next s') : Effect s s' (.datLo time)
  /-- A rising data line while the clock is high is a STOP of the open transaction (R156). -/
  | stop (t : OpenTxn) (time : Nat) (clk : s.clk = .high) (dat : s.dat = .low) (txn : s.txn = some t)
      (next : stopTxn t time (recordLevel .dat .high s) = .next s') : Effect s s' (.datHi time)

theorem exec_effect {i : Instr} {s s' : State} (h : exec i s = .next s') : Effect s s' i := by
  obtain ⟨line, level, time, rfl, he⟩ | ⟨hq, f, he⟩ := exec_cases i
  · rw [he] at h
    obtain ⟨t, rfl, rfl, hc, ht, h⟩ | ⟨rfl, rfl, hc, hd, h⟩ | ⟨t, rfl, rfl, hc, hd, ht, h⟩ | rfl :=
      lineStep_next h
    · exact .sample t time hc ht h
    · exact .start time hc hd h
    · exact .stop t time hc hd ht h
    · exact .record line level time rfl
  · rw [he] at h
    cases h
    exact .query _ hq rfl

/-! ### The invariant, operation by operation -/

section Invariant
variable {s s' : State}

/-- `Inv` speaks of six fields only. -/
theorem Inv.of_same_fields (hI : Inv s) (params : s'.params = s.params) (acc : s'.acc = s.acc)
    (n : s'.n = s.n) (txn : s'.txn = s.txn) (hist : s'.hist = s.hist)
    (outputs : s'.outputs = s.outputs) : Inv s' where
  params := by rw [params]; exact hI.params
  acc := by rw [acc, n]; exact hI.acc
  stage := by rw [n, txn]; exact hI.stage
  parSize := by rw [params, txn]; exact hI.parSize
  attached := by rw [params, txn]; exact hI.attached
  stored := by rw [params, hist]; exact hI.stored
  histSize := by rw [params, hist]; exact hI.histSize
  history := by rw [hist, outputs]; exact hI.history

theorem Inv.reply (hI : Inv s) (r : QueryResult) : Inv (reply r s) :=
  hI.of_same_fields rfl rfl rfl rfl rfl rfl

theorem Inv.takeInput (hI : Inv s) (rest : List PortWord) : Inv (takeInput rest s) :=
  hI.of_same_fields rfl rfl rfl rfl rfl rfl

theorem Inv.attachObserver (hI : Inv s) : Inv (attachObserver s) :=
  hI.of_same_fields rfl rfl rfl rfl rfl rfl

theorem Inv.recordLevel (hI : Inv s) (line : Line) (v : Level) : Inv (recordLevel line v s) := by
  cases line <;> exact hI.of_same_fields rfl rfl rfl rfl rfl rfl

/-- A reset input keeps the parameters, and nothing else that `Inv` speaks of holds a value (R230). -/
theorem inv_resetInput (wf : s.params.wf = true) (e : Nat) : Inv (resetInput e s) where
  params := wf
  acc := by simp
  stage := by simp
  parSize := by simp
  attached := by simp
  stored := by simp
  histSize := within_zero _
  history := List.nil_suffix

theorem Inv.sampleInto {t : OpenTxn} (hI : Inv s) (ht : s.txn = some t)
    (h : sampleInto t s = .next s') : Inv s' := by
  have acc := sampleInto_acc_lt ht hI.acc h
  have stage := sampleInto_stage ht (hI.stage t ht) h
  have parSize := sampleInto_parSize ht (hI.parSize t ht) h
  obtain ⟨a, par, rfl⟩ := sampleInto_frame ht h
  exact
    { hI with
      acc := acc
      stage := stage
      parSize := parSize
      attached := by rintro _ ⟨⟩; exact hI.attached t ht }

/-- With room for it, the open parcel can be attached as it stands (R154). -/
theorem Inv.attachParcel {t : OpenTxn} (hI : Inv s) (ht : s.txn = some t)
    (room : atCapacity s.params.maxParcels t.pkt.parcels.length = false) :
    ParcelsOk s.params (attachParcel t) := by
  obtain ⟨ordered, sizes, count⟩ := hI.attached t ht
  refine ⟨fun q hq => ?_, fun q hq => ?_, by simpa [Machine.attachParcel] using count.succ room⟩
  all_goals obtain hq | hq := List.mem_append.mp hq
  · exact ordered q hq
  · rw [List.mem_singleton.mp hq]
    exact (hI.stage t ht).inBusOrder
  · exact sizes q hq
  · rw [List.mem_singleton.mp hq]
    exact hI.parSize t ht

theorem parcelsOk_nil (p : Params) : ParcelsOk p [] :=
  ⟨by simp, by simp, within_zero _⟩

theorem Inv.startAction (hI : Inv s) (h : startAction s = .next s') : Inv s' := by
  obtain ⟨qs, rfl, hqs⟩ := startAction_next h
  have attached : ParcelsOk s.params qs := by
    obtain ⟨-, rfl⟩ | ⟨t, ht, rfl, room⟩ := hqs
    · exact parcelsOk_nil _
    · exact hI.attachParcel ht room
  exact
    { hI with
      acc := Nat.two_pow_pos _
      stage := by rintro _ ⟨⟩; exact parcelStage_empty
      parSize := by rintro _ ⟨⟩; exact within_zero _
      attached := by rintro _ ⟨⟩; exact attached }

/-- What a STOP closes is a Packet the block can have built (R157, R174). -/
theorem Inv.closedPacket {t : OpenTxn} (hI : Inv s) (ht : s.txn = some t)
    (room : atCapacity s.params.maxParcels t.pkt.parcels.length = false) (time : Nat) :
    PacketOk s.params (closedPacket t time s) where
  nonempty := by simp [Machine.closedPacket, Machine.attachParcel]
  parcels := hI.attachParcel ht room
  stamp w hw := by
    simp only [Machine.closedPacket, hw]
    exact timeDiff_range w time s.epoch

theorem Inv.stopTxn {t : OpenTxn} {time : Nat} (hI : Inv s) (ht : s.txn = some t)
    (h : stopTxn t time s = .next s') : Inv s' := by
  obtain ⟨room, old, rfl, hold⟩ := stopTxn_next h
  have suffix : old <:+ s.hist := by
    obtain ⟨rfl, -⟩ | ⟨rfl, -⟩ := hold
    · exact List.suffix_rfl
    · exact List.tail_suffix _
  have size : Within s.params.histCap (old ++ [Machine.closedPacket t time s]).length := by
    obtain ⟨rfl, hroom⟩ | ⟨rfl, full, -⟩ := hold
    · simpa using hI.histSize.succ hroom
    · exact within_evicted hI.params full _
  exact
    { hI with
      stage := by rintro _ ⟨⟩
      parSize := by rintro _ ⟨⟩
      attached := by rintro _ ⟨⟩
      stored := fun k hk => by
        obtain hk | hk := List.mem_append.mp hk
        · exact hI.stored k (suffix.subset hk)
        · rw [List.mem_singleton.mp hk]
          exact hI.closedPacket ht room time
      histSize := size
      history := by
        obtain ⟨older, heq⟩ := suffix.trans hI.history
        exact ⟨older, by simp [← heq]⟩ }

/-- Every instruction that completes keeps the invariant. -/
theorem Inv.exec {i : Instr} (hI : Inv s) (h : exec i s = .next s') : Inv s' := by
  cases exec_effect h with
  | query r hq hs => exact hs ▸ hI.reply r
  | record line level time hs => exact hs ▸ hI.recordLevel line level
  | sample t time hc ht hs => exact (hI.recordLevel .clk .high).sampleInto ht hs
  | start time hc hd hs => exact (hI.recordLevel .dat .low).startAction hs
  | stop t time hc hd ht hs => exact (hI.recordLevel .dat .high).stopTxn ht hs

end Invariant

/-! ### The statements -/

/-- Settles O36: each input keeps `Inv`, an instruction by `Inv.exec` and a reset because it starts anew. -/
theorem stepKeepsTheInvariant : Obligations.StepKeepsTheInvariant := by
  intro s s' hI h
  obtain ⟨-, rfl⟩ | ⟨x, rest, -, ⟨i, -, h⟩ | ⟨e, -, rfl⟩ | ⟨-, rfl⟩⟩ := step_next h
  · exact hI
  · exact (hI.takeInput rest).exec h
  · exact inv_resetInput (s := takeInput rest s) hI.params e
  · exact (hI.takeInput rest).attachObserver

/-- Settles O39: a query and a recorded level leave the parcel, a bit sample extends it, a START changes the attached parcels and a
STOP leaves none open. -/
theorem addressAndDirectionAreSetOnce : Obligations.AddressAndDirectionAreSetOnce := by
  intro i s s' t t' hI h ht ht' hpkt
  have same (htxn : s'.txn = s.txn) : ParcelExtends t.par t'.par := by
    rw [htxn, ht, Option.some.injEq] at ht'
    exact ht' ▸ ParcelExtends.refl _
  suffices ParcelExtends t.par t'.par from ⟨this.address, this.direction, this.data⟩
  cases exec_effect h with
  | query r hq hs => exact same (by rw [hs, reply_txn])
  | record line level time hs => exact same (by rw [hs, recordLevel_txn])
  | sample u time hc hu hs =>
    rw [ht, Option.some.injEq] at hu
    subst hu
    exact sampleInto_extends (s := recordLevel .clk .high s) ht (hI.stage t ht) hs t' ht'
  | start time hc hd hs =>
    rw [startAction_txn_of_open (s := recordLevel .dat .low s) ht hs, Option.some.injEq] at ht'
    subst ht'
    exact absurd (congrArg PacketInProgress.parcels hpkt) (by simp)
  | stop u time hc hd hu hs =>
    obtain ⟨-, old, rfl, -⟩ := stopTxn_next hs
    simp at ht'

/-- Settles O40: only START and STOP touch the attached parcels, and both put the open parcel after them. -/
theorem attachedParcelsNeverChange : Obligations.AttachedParcelsNeverChange := by
  intro i s s' t h ht
  have stays (u : OpenTxn) (hu : s'.txn = some u) (hpre : t.pkt.parcels <+: u.pkt.parcels) :
      (∀ t', s'.txn = some t' → t.pkt.parcels <+: t'.pkt.parcels) ∧
        (s'.txn = none → ∃ p, s'.hist.getLast? = some p ∧ p.parcels = t.pkt.parcels ++ [t.par]) := by
    simp [hu, hpre]
  cases exec_effect h with
  | query r hq hs => exact stays t (by rw [hs, reply_txn, ht]) List.prefix_rfl
  | record line level time hs => exact stays t (by rw [hs, recordLevel_txn, ht]) List.prefix_rfl
  | sample u time hc hu hs =>
    rw [ht, Option.some.injEq] at hu
    subst hu
    obtain ⟨acc, par, rfl⟩ := sampleInto_frame (s := recordLevel .clk .high s) ht hs
    exact stays _ rfl List.prefix_rfl
  | start time hc hd hs =>
    exact stays _ (startAction_txn_of_open (s := recordLevel .dat .low s) ht hs)
      (List.prefix_append _ _)
  | stop u time hc hd hu hs =>
    rw [ht, Option.some.injEq] at hu
    subst hu
    obtain ⟨-, old, rfl, -⟩ := stopTxn_next hs
    exact ⟨by simp, fun _ => ⟨_, List.getLast?_concat, rfl⟩⟩

/-- Settles O41: of the five effects only a STOP writes these fields. -/
theorem onlyStopWritesHistory : Obligations.OnlyStopWritesHistory := by
  intro i s s' h
  cases exec_effect h with
  | query r hq hs => exact .inl (hs ▸ ⟨rfl, rfl, rfl⟩)
  | record line level time hs =>
    exact .inl (hs ▸ ⟨recordLevel_hist .., recordLevel_outputs .., recordLevel_observed ..⟩)
  | sample t time hc ht hs =>
    obtain ⟨acc, par, rfl⟩ := sampleInto_frame (s := recordLevel .clk .high s) ht hs
    exact .inl ⟨rfl, rfl, rfl⟩
  | start time hc hd hs =>
    obtain ⟨qs, rfl, -⟩ := startAction_next hs
    exact .inl ⟨rfl, rfl, rfl⟩
  | stop t time hc hd ht hs =>
    obtain ⟨-, old, rfl, hold⟩ := stopTxn_next hs
    refine .inr ⟨time, _, old, rfl, hc, hd, by simp [State.par, ht], ?_, rfl, rfl⟩
    rw [List.drop_one]
    exact hold.imp And.left And.left

/-- Settles O43: none of the five effects writes a field of the environment. -/
theorem epochAndParametersAreFixed : Obligations.EpochAndParametersAreFixed := by
  intro i s s' h
  cases exec_effect h with
  | query r hq hs => exact hs ▸ ⟨rfl, rfl, rfl, rfl⟩
  | record line level time hs => cases line <;> exact hs ▸ ⟨rfl, rfl, rfl, rfl⟩
  | sample t time hc ht hs =>
    obtain ⟨acc, par, rfl⟩ := sampleInto_frame (s := recordLevel .clk .high s) ht hs
    exact ⟨rfl, rfl, rfl, rfl⟩
  | start time hc hd hs =>
    obtain ⟨qs, rfl, -⟩ := startAction_next hs
    exact ⟨rfl, rfl, rfl, rfl⟩
  | stop t time hc hd ht hs =>
    obtain ⟨-, old, rfl, -⟩ := stopTxn_next hs
    exact ⟨rfl, rfl, rfl, rfl⟩

/-- Settles O9: a reset word that fits its port decodes to the reset command. -/
theorem resetInputGivesResetValues : Obligations.ResetInputGivesResetValues := by
  intro s e rest hp hfit
  rw [step_of_decode hp (decodeInput_reset hfit)]
  rfl

/-- Settles O10. -/
theorem resetStateValues : Obligations.ResetStateValues :=
  ⟨rfl, rfl, rfl, rfl, rfl, rfl, rfl, rfl⟩

/-- Settles O37: the state after reset is what a reset input with epoch 0 gives. -/
theorem resetHasTheInvariant : Obligations.ResetHasTheInvariant :=
  inv_resetInput (s := State.reset) rfl 0

end Sys2Proof.Machine
end

section
/-! SUPPORT and PROOFS for the family `20_memory.md`. First the equations of a STOP at its capacities, of a query and of an event at the
recorded level; then what the events of an address group and of a byte group do; last the statements, each a use of these. -/

namespace Sys2Proof.Machine

/-! ### Capacities, the timestamp and STOP -/

theorem atCapacity_iff (cap : Option Nat) (len : Nat) : atCapacity cap len = true ↔ cap = some len := by
  cases cap <;> simp [atCapacity, eq_comm]

theorem atCapacity_eq_false (cap : Option Nat) (len : Nat) :
    atCapacity cap len = false ↔ cap ≠ some len := by
  rw [← Bool.not_eq_true, ne_eq, atCapacity_iff]

/-- The two conditions of R158 leave one value: exact without a width, the residue modulo `2^TS_W` with one. -/
theorem eq_timeDiff {w : Option Nat} {time epoch : Nat} {stamp : Int}
    (infinite : w = none → stamp = (time : Int) - (epoch : Int))
    (finite : ∀ k, w = some k →
      0 ≤ stamp ∧ stamp < 2 ^ k ∧ ((2 ^ k : Int)) ∣ (time : Int) - (epoch : Int) - stamp) :
    stamp = timeDiff w time epoch := by
  cases w with
  | none => exact infinite rfl
  | some k =>
    obtain ⟨nonneg, below, divides⟩ := finite k rfl
    have congruent : stamp % 2 ^ k = ((time : Int) - (epoch : Int)) % 2 ^ k :=
      Int.modEq_iff_dvd.mpr divides
    rw [Int.emod_eq_of_lt nonneg below] at congruent
    simpa [timeDiff] using congruent

/-- A Packet with the parcels and the timestamp of R157 and R158 is the one a STOP closes. -/
theorem eq_closedPacket {t : OpenTxn} {time : Nat} {s : State} {p : Packet}
    (parcels : p.parcels = t.pkt.parcels ++ [t.par])
    (infinite : s.params.tsW = none → p.timestamp = (time : Int) - (s.epoch : Int))
    (finite : ∀ w, s.params.tsW = some w →
      0 ≤ p.timestamp ∧ p.timestamp < 2 ^ w ∧
        ((2 ^ w : Int)) ∣ (time : Int) - (s.epoch : Int) - p.timestamp) :
    p = closedPacket t time s := by
  rw [closedPacket, attachParcel, ← eq_timeDiff infinite finite, ← parcels]

section Stop
variable {t : OpenTxn} {time : Nat} {s : State}

/-- A rising data line while the clock is high is a STOP of the open transaction (R156). -/
theorem exec_datHi_of_stopCondition (hc : s.clk = .high) (hd : s.dat = .low) (ht : s.txn = some t) :
    exec (.datHi time) s = stopTxn t time (recordLevel .dat .high s) := by
  simp [exec, execDatHi, lineStep, classifyEvent, edgesOf, classify, parcelOpen, State.par,
    stopAction, hc, hd, ht]

/-- A STOP whose Packet is full faults (R163). -/
theorem stopTxn_of_full_packet (full : s.params.maxParcels = some t.pkt.parcels.length) :
    stopTxn t time s = capacityFault .parcels :=
  if_pos ((atCapacity_iff ..).mpr full)

/-- A STOP with room in its Packet is the append to history, then the output (R157). -/
theorem stopTxn_of_room (room : s.params.maxParcels ≠ some t.pkt.parcels.length) :
    stopTxn t time s = andThen (histAppend (closedPacket t time s) s) fun s₁ =>
      .next (emitOut (closedPacket t time s) { s₁ with txn := none }) :=
  if_neg (mt (atCapacity_iff ..).mp room)

theorem histAppend_of_full_fault {p : Packet} (full : s.params.histCap = some s.hist.length)
    (policy : s.params.histOverflow = .fault) : histAppend p s = capacityFault .history := by
  simp [histAppend, (atCapacity_iff ..).mpr full, policy]

theorem histAppend_of_full_evict {p : Packet} (full : s.params.histCap = some s.hist.length)
    (policy : s.params.histOverflow = .evictOldest) :
    histAppend p s = .next { s with hist := s.hist.tail ++ [p] } := by
  simp [histAppend, (atCapacity_iff ..).mpr full, policy]

end Stop

/-! ### Queries -/

/-- A query replies with a function of the parameters and the history alone (R195). -/
theorem exec_query {i : Instr} (hq : i.isQuery = true) :
    ∃ answer : Params → List Packet → QueryResult,
      ∀ s, exec i s = .next (reply (answer s.params s.hist) s) := by
  cases i with
  | clkLo _ => cases hq
  | clkHi _ => cases hq
  | datLo _ => cases hq
  | datHi _ => cases hq
  | qLatest => exact ⟨fun _ => latest, fun _ => rfl⟩
  | qSecondLatest => exact ⟨fun _ => secondLatest, fun _ => rfl⟩
  | qFind pidx => exact ⟨fun p => findLatestMatching (predicate p pidx), fun _ => rfl⟩

/-- The newest Packet of a history just appended to is the one appended (R191). -/
theorem latest_append (hist : List Packet) (p : Packet) :
    latest (hist ++ [p]) = { status := .found, packet := some p } := by
  simp [latest, foundAt, histAt]

/-! ### Events at the recorded level -/

/-- An event at the level its line already has does nothing, at any time (R103, R112). -/
theorem lineStep_recordedLevel (line : Line) (time : Nat) (s : State) :
    lineStep line (recordedLevel s line) time s = .next s := by
  cases line <;> simp [lineStep, classifyEvent, edgesOf, recordedLevel, recordLevel]

/-- An event that completes leaves its level recorded, whatever action it ran (R101). -/
theorem recordedLevel_of_lineStep {line : Line} {level : Level} {time : Nat} {s s' : State}
    (h : lineStep line level time s = .next s') : recordedLevel s' line = level := by
  obtain ⟨t, rfl, rfl, -, ht, hs⟩ | ⟨rfl, rfl, -, -, hs⟩ | ⟨t, rfl, rfl, -, -, -, hs⟩ | rfl :=
    lineStep_next h
  · obtain ⟨acc, par, rfl⟩ := sampleInto_frame (s := { s with clk := .high }) ht hs
    rfl
  · obtain ⟨qs, rfl, -⟩ := startAction_next hs
    rfl
  · obtain ⟨-, old, rfl, -⟩ := stopTxn_next hs
    rfl
  · exact recordedLevel_recordLevel line level s

/-! ### Bit samples by their emission -/

section Sample
variable {t : OpenTxn} {s : State}

theorem sampleInto_of_addr (he : emission (s.n + 1) = .addr) :
    sampleInto t s = .next { s with
      n := s.n + 1, acc := 0
      txn := some { t with par := { t.par with
        address := some (latchAddress (shiftIn s.acc s.dat)) } } } := by
  simp only [sampleInto, he]

theorem sampleInto_of_dir (he : emission (s.n + 1) = .dir) :
    sampleInto t s = .next { s with
      n := s.n + 1, acc := 0
      txn := some { t with par := { t.par with
        direction := some (latchDirection (shiftIn s.acc s.dat)) } } } := by
  simp only [sampleInto, he]

theorem sampleInto_of_data (he : emission (s.n + 1) = .data)
    (room : s.params.maxData ≠ some t.par.data.length) :
    sampleInto t s = .next { s with
      n := s.n + 1, acc := 0
      txn := some { t with par := { t.par with
        data := t.par.data ++ [latchByte (shiftIn s.acc s.dat)] } } } := by
  simp only [sampleInto, he, (atCapacity_eq_false ..).mpr room, Bool.false_eq_true, if_false]

theorem sampleInto_of_ack (he : emission (s.n + 1) = .ack) :
    sampleInto t s = .next { s with n := s.n + 1, acc := 0 } := by
  simp only [sampleInto, he]

theorem execAll_bits_then_bits {bs cs : List Level} {s₁ : State} {r : Result}
    (first : execAll (bitsEvents bs) s = .next s₁) (second : execAll (bitsEvents cs) s₁ = r) :
    execAll (bitsEvents (bs ++ cs)) s = r := by
  rw [execAll_bitsEvents_append, first, andThen_next, second]

/-- A bit that completes a group ends the run of quiet bits before it (R131, R137). -/
theorem execAll_quiet_bits_then_bit {bs : List Level} {b : Level} {s' : State} (hc : s.clk = .low)
    (ht : s.txn = some t) (quiet : ∀ i < bs.length, emission (s.n + i + 1) = .none)
    (h : sampleInto t { s with
      clk := .high, dat := b, acc := bs.foldl shiftIn s.acc, n := s.n + bs.length } = .next s') :
    execAll (bitsEvents (bs ++ [b])) s = .next { s' with clk := .low } := by
  refine execAll_bits_then_bits (execAll_quiet_bits bs s t hc ht quiet) ?_
  rw [bitsEvents, List.flatMap_singleton]
  exact execAll_bitEvents hc ht h

/-- An acknowledgment bit, alone in its accumulator, is counted and discarded (R136). -/
theorem execAll_ack_bit (k : Level) (hc : s.clk = .low) (ht : s.txn = some t)
    (he : emission (s.n + 1) = .ack) (hacc : s.acc = 0) :
    execAll (bitsEvents [k]) s = .next { s with dat := k, n := s.n + 1 } := by
  have run := execAll_quiet_bits_then_bit (bs := []) (b := k) hc ht (by simp) (sampleInto_of_ack he)
  exact run.trans (by simp only [hc, hacc, List.length_nil, Nat.add_zero])

/-- The direction bit, alone in its accumulator, sets the direction it codes (R134). -/
theorem execAll_direction_bit (d : Dir) (hc : s.clk = .low) (ht : s.txn = some t) (hn : s.n = 7)
    (hacc : s.acc = 0) :
    execAll (bitsEvents [dirBit d]) s = .next { s with
      dat := dirBit d, n := 8
      txn := some { t with par := { t.par with direction := some d } } } := by
  have latched : latchDirection (shiftIn 0 (dirBit d)) = d := by cases d <;> rfl
  have run := execAll_quiet_bits_then_bit (bs := []) (b := dirBit d) hc ht (by simp)
    (sampleInto_of_dir (emission_dir.mpr (by simp [hn])))
  exact run.trans (by simp only [hc, hn, hacc, List.length_nil, List.foldl_nil, latched])

/-- Seven bits from an empty accumulator set the address they spell (R133). -/
theorem execAll_address_bits (a : Address) (hc : s.clk = .low) (ht : s.txn = some t) (hn : s.n = 0)
    (hacc : s.acc = 0) :
    execAll (bitsEvents (addressBits a)) s = .next { s with
      dat := bitLevel a[0], n := 7
      txn := some { t with par := { t.par with address := some a } } } := by
  have split : addressBits a =
      [a[6], a[5], a[4], a[3], a[2], a[1]].map bitLevel ++ [bitLevel a[0]] := rfl
  have spelled := shift_addressBits a
  rw [split, List.foldl_concat] at spelled
  rw [split]
  refine (execAll_quiet_bits_then_bit hc ht (fun i hi => ?_)
    (sampleInto_of_addr (emission_addr.mpr ?_))).trans ?_
  · have hi : i < 6 := hi
    exact emission_none.mpr (.inl (by omega))
  · simp [hn]
  · simp only [hc, hn, hacc, spelled, latchAddress_toNat, List.length_map, List.length_cons,
      List.length_nil, Nat.zero_add, Nat.reduceAdd]

/-- Eight bits from an empty accumulator at a group boundary append the byte they spell (R135). -/
theorem execAll_byte_bits (v : Byte) {j : Nat} (hj : 1 ≤ j) (hc : s.clk = .low) (ht : s.txn = some t)
    (hn : s.n = 9 * j) (hacc : s.acc = 0) (room : s.params.maxData ≠ some t.par.data.length) :
    execAll (bitsEvents (byteBits v)) s = .next { s with
      dat := bitLevel v[0], n := s.n + 8
      txn := some { t with par := { t.par with data := t.par.data ++ [v] } } } := by
  have split : byteBits v =
      [v[7], v[6], v[5], v[4], v[3], v[2], v[1]].map bitLevel ++ [bitLevel v[0]] := rfl
  have spelled := shift_byteBits v
  rw [split, List.foldl_concat] at spelled
  rw [split]
  refine (execAll_quiet_bits_then_bit hc ht (fun i hi => ?_)
    (sampleInto_of_data (emission_data.mpr ?_) room)).trans ?_
  · have hi : i < 7 := hi
    exact emission_none.mpr (.inr (by omega))
  · show 8 < s.n + 7 + 1 ∧ (s.n + 7 + 1) % 9 = 8
    omega
  · simp only [hc, hacc, spelled, latchByte_toNat, List.length_map, List.length_cons,
      List.length_nil, Nat.zero_add, Nat.reduceAdd, Nat.add_assoc]

end Sample

/-! ### The statements -/

/-- Settles O33: the seven address bits, the direction bit and the acknowledgment bit, one after the other. -/
theorem addressGroupIsLatched : Obligations.AddressGroupIsLatched := by
  intro a d k s t hc ht hn hacc
  have address := execAll_address_bits a hc ht hn hacc
  have direction := execAll_bits_then_bits address (execAll_direction_bit d hc rfl rfl hacc)
  have group := execAll_bits_then_bits direction (execAll_ack_bit k hc rfl rfl hacc)
  rwa [List.append_assoc] at group

/-- Settles O34: the eight bits of the byte, then the acknowledgment bit. -/
theorem byteGroupIsAppended : Obligations.ByteGroupIsAppended := by
  intro v k s t j hj hc ht hn hacc room
  have ack : emission (s.n + 8 + 1) = .ack := emission_ack.mpr (by omega)
  exact execAll_bits_then_bits (execAll_byte_bits v hj hc ht hn hacc room)
    (execAll_ack_bit k hc rfl ack hacc)

/-- Settles O28: the Packet's capacity is tested first, then the history's by its policy. -/
theorem stopAtACapacity : Obligations.StopAtACapacity := by
  intro time s t hc hd ht
  rw [exec_datHi_of_stopCondition hc hd ht]
  refine ⟨stopTxn_of_full_packet (s := recordLevel .dat .high s), fun room full => ?_⟩
  rw [stopTxn_of_room (s := recordLevel .dat .high s) room]
  refine ⟨fun policy => ?_, fun p policy parcels infinite finite => ?_⟩
  · rw [histAppend_of_full_fault (s := recordLevel .dat .high s) full policy]
    rfl
  · have closed : p = closedPacket t time (recordLevel .dat .high s) :=
      eq_closedPacket parcels infinite finite
    rw [histAppend_of_full_evict (s := recordLevel .dat .high s) full policy, andThen_next, ← closed,
      List.drop_one]
    rfl

/-- Settles O16: the event leaves its level recorded, and an event at the recorded level does nothing. -/
theorem repeatedEventIsIdempotent : Obligations.RepeatedEventIsIdempotent := by
  intro line level time time' s s' h
  rw [exec_eventInstr] at h ⊢
  have recorded := recordedLevel_of_lineStep h
  rw [← recorded]
  exact lineStep_recordedLevel line time' s'

/-- Settles O49: a reply changes neither the parameters nor the history, on which alone the answer depends. -/
theorem queriesChangeNothing : Obligations.QueriesChangeNothing := by
  intro i s hq
  obtain ⟨answer, hexec⟩ := exec_query hq
  refine ⟨answer s.params s.hist, hexec s, (hexec _).trans ?_⟩
  simp [reply]

/-- Settles O51: of the effects of DAT_HI only a STOP makes an output, and it is the last Packet of the history. -/
theorem latestAfterStopIsThePacketOutput : Obligations.LatestAfterStopIsThePacketOutput := by
  intro time s s₁ o h hout
  obtain ⟨_, hline, -⟩ | ⟨-, hlevel, -⟩ | ⟨t, -, -, -, -, -, hs⟩ | rfl :=
    lineStep_next (line := .dat) (level := .high) h
  · cases hline
  · cases hlevel
  · obtain ⟨-, old, rfl, -⟩ := stopTxn_next hs
    have output : OutRecord.mk (closedPacket t time { s with dat := .high }) = o := by
      simpa using hout
    subst output
    exact congrArg (fun r => Host.Outcome.next (reply r _)) (latest_append old _)
  · simp at hout

/-- Settles O7. -/
theorem stepRunsDecodedInput : Obligations.StepRunsDecodedInput :=
  fun _ _ _ _ hp hd => step_of_decode hp hd

end Sys2Proof.Machine
end

section
/-! SUPPORT and PROOFS for the family `30_encoding.md`. First what decoding a port word gives in terms of its fields, and what the encoding
of an instruction decodes to; then what the events of a START, of a sequence of byte groups and of a STOP do where no capacity is
finite; last the statements, each a use of these. -/

namespace Sys2Proof

/-! ### Widths -/

/-- A word of `2 + TS_W` (or `2 + PRED_W`) bits is one whose field above the two low bits fits the width of that field. -/
theorem fitsWidth_word (w : Option Nat) (v : Nat) :
    fitsWidth (w.map (2 + ·)) v = fitsWidth w (fieldFrom v 2) := by
  cases w with
  | none => rfl
  | some k =>
    simp only [Option.map_some, fitsWidth, fieldFrom, Nat.pow_add, Nat.reducePow]
    exact decide_eq_decide.mpr (by omega)

theorem fits_event (p : Params) (w : Nat) :
    (PortWord.event w).fits p = fitsWidth p.tsW (eventTime w) := fitsWidth_word p.tsW w

theorem fits_query (p : Params) (q : Nat) :
    (PortWord.query q).fits p = fitsWidth p.predW (queryIndex q) := fitsWidth_word p.predW q

/-- A well-formed instruction's word is a word of its port. -/
theorem encode_fits {p : Params} {i : Instr} (h : i.wellFormed p = true) :
    (encode i).fits p = true := by
  cases i with
  | clkLo t => exact Laws.EncodeFits.clkLo t p h
  | clkHi t => exact Laws.EncodeFits.clkHi t p h
  | datLo t => exact Laws.EncodeFits.datLo t p h
  | datHi t => exact Laws.EncodeFits.datHi t p h
  | qLatest => exact Laws.EncodeFits.qLatest p h
  | qSecondLatest => exact Laws.EncodeFits.qSecondLatest p h
  | qFind pidx => exact Laws.EncodeFits.qFind pidx p h

/-- An input that decodes is a value of its port: a wider number is no instruction (notes/assumptions/9.md). -/
theorem fits_of_decodeInput {p : Params} {x : PortWord} {c : Command} (h : decodeInput p x = .ok c) :
    x.fits p = true := by
  by_contra wide
  cases x with
  | event w =>
    rw [fits_event] at wide
    rw [decodeInput, decodeEvent, if_neg wide] at h
    cases h
  | query q =>
    rw [fits_query] at wide
    rw [decodeInput, decodeQuery, if_neg wide] at h
    cases h
  | reset e =>
    rw [PortWord.fits] at wide
    rw [decodeInput, if_neg wide] at h
    cases h
  | attach => exact wide rfl

/-! ### Event words -/

theorem encode_eventInstr (line : Line) (level : Level) (time : Nat) :
    encode (eventInstr line level time) = .event (eventWord line level time) := by
  cases line <;> cases level <;> rfl

theorem wellFormed_eventInstr (p : Params) (line : Line) (level : Level) (time : Nat) :
    (eventInstr line level time).wellFormed p = fitsWidth p.tsW time := by
  cases line <;> cases level <;> rfl

/-- A word of the event port decodes to the event of its three fields (R76, R77). -/
theorem decodeInput_event {p : Params} {w : Nat} (h : (PortWord.event w).fits p = true) :
    decodeInput p (.event w) =
      .ok (.instr (eventInstr (eventLine w) (eventLevel w) (eventTime w))) := by
  rw [fits_event] at h
  rw [decodeInput, decodeEvent, if_pos h]
  rfl

/-- An event of fields that fit is what its word decodes to. -/
theorem decode_encode_eventInstr {p : Params} {line : Line} {level : Level} {time : Nat}
    (h : (eventInstr line level time).wellFormed p = true) :
    decodeInput p (encode (eventInstr line level time)) =
      .ok (.instr (eventInstr line level time)) := by
  have fits := encode_fits h
  obtain ⟨hline, hlevel, htime⟩ := eventWord_fields line level time
  rw [encode_eventInstr] at fits ⊢
  rw [decodeInput_event fits, hline, hlevel, htime]

/-- The bits of the `line` and `level` fields, read from the two low bits of a word (R73, R74). -/
theorem bitAt_zero (w : Nat) : bitAt w 0 = w % 4 % 2 := by
  simp only [bitAt, Nat.pow_zero, Nat.div_one]
  omega

theorem bitAt_one (w : Nat) : bitAt w 1 = w % 4 / 2 := by
  simp only [bitAt, Nat.pow_one]
  omega

/-! ### Query words -/

/-- A query word is built of its own fields. -/
theorem queryWord_of_fields (q : Nat) : queryWord (queryOp q) (queryIndex q) = q := by
  simp only [queryWord, queryOp, queryIndex, fieldFrom, Nat.reducePow]
  omega

/-- The query opcode map by the two fields of a word of the query port (R79, R80). -/
theorem decodeInput_query {p : Params} {q : Nat} (h : (PortWord.query q).fits p = true) :
    decodeInput p (.query q) =
      if queryOp q = 0 ∧ queryIndex q = 0 then .ok (.instr .qLatest)
      else if queryOp q = 1 ∧ queryIndex q = 0 then .ok (.instr .qSecondLatest)
      else if queryOp q = 2 then .ok (.instr (.qFind (queryIndex q)))
      else .error .reservedQuery := by
  have op_lt : queryOp q < 4 := Nat.mod_lt _ (by decide)
  rw [fits_query] at h
  rw [decodeInput, decodeQuery, if_pos h]
  generalize queryOp q = op at op_lt ⊢
  by_cases index : queryIndex q = 0
  all_goals interval_cases op <;> simp [index, Except.map]

/-- The query opcode map on the word of an `op` and a `pidx` (R78 to R80). -/
theorem decodeInput_queryWord {p : Params} {op pidx : Nat} (hop : op < 4)
    (h : (PortWord.query (queryWord op pidx)).fits p = true) :
    decodeInput p (.query (queryWord op pidx)) =
      if op = 0 ∧ pidx = 0 then .ok (.instr .qLatest)
      else if op = 1 ∧ pidx = 0 then .ok (.instr .qSecondLatest)
      else if op = 2 then .ok (.instr (.qFind pidx))
      else .error .reservedQuery := by
  obtain ⟨ofOp, ofIndex⟩ := queryWord_fields op pidx hop
  rw [decodeInput_query h, ofOp, ofIndex]

/-- A query word that has a meaning is the word of it, and its index fits. -/
theorem encode_of_decodeInput_query {p : Params} {q : Nat} {i : Instr}
    (h : decodeInput p (.query q) = .ok (.instr i)) :
    encode i = .query q ∧ i.wellFormed p = true := by
  have fits := fits_of_decodeInput h
  have index_fits := fits_query p q ▸ fits
  have word := queryWord_of_fields q
  rw [decodeInput_query fits] at h
  split_ifs at h with latest second find
  · cases h
    rw [latest.1, latest.2] at word
    exact ⟨congrArg PortWord.query word, rfl⟩
  · cases h
    rw [second.1, second.2] at word
    exact ⟨congrArg PortWord.query word, rfl⟩
  · cases h
    rw [find] at word
    exact ⟨congrArg PortWord.query word, index_fits⟩

end Sys2Proof

namespace Sys2Proof.Machine

/-- A step whose input does not decode is the refusal of it (R80, R216). -/
theorem step_of_decode_error {s : State} {x : PortWord} {rest : List PortWord} {e : DecodeError}
    (hp : s.pending = x :: rest) (hd : decodeInput s.params x = .error e) :
    step s = .refused (refusalOf e) := by
  unfold step
  simp only [hp, hd]

/-! ### Events and the actions they run -/

section Transaction
variable {t : OpenTxn} {time : Nat} {s s₁ : State}

theorem execAll_append_of_next {is js : List Instr} (first : execAll is s = .next s₁) :
    execAll (is ++ js) s = execAll js s₁ := by
  rw [execAll_append, first, andThen_next]

/-- An instruction that completes hands its state to the rest of the list. -/
theorem execAll_cons_of_next {i : Instr} {is : List Instr} (first : exec i s = .next s₁) :
    execAll (i :: is) s = execAll is s₁ := by
  rw [execAll, first, andThen_next]

/-- A falling or redundant clock event only records the level (R113). -/
theorem exec_clkLo (time : Nat) (s : State) :
    exec (.clkLo time) s = .next (recordLevel .clk .low s) := by
  simp [exec, execClkLo, lineStep, classifyEvent, edgesOf, recordLevel, classify_eq_rising]

/-- A falling data line while the clock is high is a START (R150). -/
theorem exec_datLo_of_startCondition (hc : s.clk = .high) (hd : s.dat = .high) :
    exec (.datLo time) s = startAction (recordLevel .dat .low s) := by
  simp [exec, execDatLo, lineStep, classifyEvent, edgesOf, recordLevel, classify, hc, hd]

/-- A rising clock samples a bit into the open transaction (R130). -/
theorem exec_clkHi_of_clockRise (hc : s.clk = .low) (ht : s.txn = some t) :
    exec (.clkHi time) s = sampleInto t (recordLevel .clk .high s) := by
  simp [exec, execClkHi, lineStep, classifyEvent, edgesOf, classify, parcelOpen, State.par,
    bitSample, hc, ht]

theorem sampleInto_of_none (he : emission (s.n + 1) = .none) :
    sampleInto t s = .next { s with n := s.n + 1, acc := shiftIn s.acc s.dat } := by
  simp only [sampleInto, he]

theorem histAppend_of_infinite (p : Packet) (infinite : s.params.histCap = none) :
    histAppend p s = .next { s with hist := s.hist ++ [p] } := by
  simp [histAppend, infinite]

/-- Where no capacity is finite, a STOP appends its Packet to history and outputs it (R157). -/
theorem stopTxn_of_unbounded (hu : Unbounded s.params) :
    stopTxn t time s = .next (emitOut (closedPacket t time s)
      { s with hist := s.hist ++ [closedPacket t time s], txn := none }) := by
  obtain ⟨-, parcels, hist⟩ := hu
  rw [stopTxn_of_room (by simp [parcels]), histAppend_of_infinite _ hist, andThen_next]

/-! ### The parts of a transaction -/

/-- The state a START from idle lines leaves once the clock has fallen: an empty Packet and an empty Parcel are open, and no bit is
counted (R151, R152). -/
def started (s : State) : State :=
  { s with
    clk := .low, dat := .low, acc := 0, n := 0
    txn := some { pkt := PacketInProgress.empty, par := Parcel.empty } }

theorem execAll_start (hc : s.clk = .high) (hd : s.dat = .high) (ht : s.txn = none) :
    execAll [.datLo 0, .clkLo 0] s = .next (started s) := by
  have start : exec (.datLo 0) s = .next { s with
      dat := .low, acc := 0, n := 0
      txn := some { pkt := PacketInProgress.empty, par := Parcel.empty } } := by
    rw [exec_datLo_of_startCondition hc hd]
    simp [startAction, recordLevel, ht]
  rw [execAll_cons_of_next start, execAll_cons_of_next (exec_clkLo ..)]
  rfl

/-- From a group boundary, byte groups append their bytes in order, whatever their acknowledgment bits (R135, R136). -/
theorem execAll_byteGroups (bytes : List (Byte × Level)) (s : State) (t : OpenTxn) {j : Nat}
    (hj : 1 ≤ j) (hc : s.clk = .low) (ht : s.txn = some t) (hn : s.n = 9 * j) (hacc : s.acc = 0)
    (infinite : s.params.maxData = none) :
    execAll (bitsEvents (bytes.flatMap fun b => byteGroup b.1 b.2)) s = .next { s with
      dat := (bytes.map Prod.snd).getLastD s.dat, n := s.n + 9 * bytes.length
      txn := some { t with par := { t.par with data := t.par.data ++ bytes.map Prod.fst } } } := by
  induction bytes generalizing s t j with
  | nil =>
    simp only [List.map_nil, List.append_nil, List.getLastD_nil, List.length_nil, Nat.mul_zero,
      Nat.add_zero, ← ht]
    rfl
  | cons b bytes ih =>
    have first := byteGroupIsAppended b.1 b.2 s t j hj hc ht hn hacc (by simp [infinite])
    have rest := ih { s with
        dat := b.2, n := s.n + 9
        txn := some { t with par := { t.par with data := t.par.data ++ [b.1] } } } _
      (j := j + 1) (by omega) hc rfl (by simp only [hn]; omega) hacc infinite
    rw [List.flatMap_cons, execAll_bits_then_bits first rest]
    simp only [List.map_cons, List.getLastD_cons, List.length_cons, List.append_assoc,
      List.singleton_append, Nat.mul_add, Nat.mul_one, Nat.add_assoc, Nat.add_comm 9]

/-- The open transaction of a first Parcel with an address, a direction and bytes. -/
def firstParcel (a : Address) (d : Dir) (bytes : List Byte) : OpenTxn :=
  { pkt := PacketInProgress.empty, par := { address := some a, direction := some d, data := bytes } }

/-- The state that the address group and the byte groups of a transaction leave, before its STOP (R71). -/
def grouped (a : Address) (d : Dir) (k : Level) (bytes : List (Byte × Level)) (s : State) : State :=
  { s with
    clk := .low, dat := (bytes.map Prod.snd).getLastD k, acc := 0, n := 9 + 9 * bytes.length
    txn := some (firstParcel a d (bytes.map Prod.fst)) }

/-- From idle lines, the START, the address group and the byte groups build the one Parcel (R71). -/
theorem execAll_groups (a : Address) (d : Dir) (k : Level) (bytes : List (Byte × Level))
    (infinite : s.params.maxData = none) (hc : s.clk = .high) (hd : s.dat = .high)
    (ht : s.txn = none) :
    execAll ([.datLo 0, .clkLo 0] ++ bitsEvents (addressGroup a d k) ++
      bitsEvents (bytes.flatMap fun b => byteGroup b.1 b.2)) s = .next (grouped a d k bytes s) := by
  have address : execAll (bitsEvents (addressGroup a d k)) (started s) = .next (grouped a d k [] s) :=
    addressGroupIsLatched a d k (started s) _ rfl rfl rfl rfl
  rw [List.append_assoc, execAll_append_of_next (execAll_start hc hd ht),
    execAll_append_of_next address]
  exact execAll_byteGroups bytes (grouped a d k [] s) _ le_rfl rfl rfl rfl rfl infinite

/-- The Packet that a STOP closes after the groups of a transaction, where times are exact (R158). -/
theorem closedPacket_grouped {a : Address} {d : Dir} {k : Level} {bytes : List (Byte × Level)}
    (exactTimes : s.params.tsW = none) :
    closedPacket (firstParcel a d (bytes.map Prod.fst)) time (grouped a d k bytes s) =
      { timestamp := (time : Int) - (s.epoch : Int)
        parcels := [{ address := some a, direction := some d, data := bytes.map Prod.fst }] } := by
  rw [closedPacket, show (grouped a d k bytes s).params.tsW = none from exactTimes]
  rfl

/-- With an empty accumulator and no emission due, the events of a STOP count the bit 0 that their clock edge samples and close the
Packet (R137, R157, R159). -/
theorem execAll_stop (hu : Unbounded s.params) (quiet : emission (s.n + 1) = .none)
    (hc : s.clk = .low) (ht : s.txn = some t) (hacc : s.acc = 0) :
    execAll [.datLo 0, .clkHi 0, .datHi time] s = .next (emitOut (closedPacket t time s) { s with
      clk := .high, dat := .high, n := s.n + 1, txn := none
      hist := s.hist ++ [closedPacket t time s] }) := by
  have sample : exec (.clkHi 0) { s with dat := .low } = .next { s with
      clk := .high, dat := .low, n := s.n + 1 } := by
    rw [exec_clkHi_of_clockRise (s := { s with dat := .low }) hc ht,
      sampleInto_of_none (s := recordLevel .clk .high { s with dat := .low }) quiet]
    simp [recordLevel, hacc, shiftIn, levelBit]
  have stop : exec (.datHi time) { s with clk := .high, dat := .low, n := s.n + 1 } =
      .next (emitOut (closedPacket t time s) { s with
        clk := .high, dat := .high, n := s.n + 1, txn := none
        hist := s.hist ++ [closedPacket t time s] }) :=
    (exec_datHi_of_stopCondition rfl rfl (by exact ht)).trans (stopTxn_of_unbounded hu)
  have set_up : exec (.datLo 0) s = .next { s with dat := .low } :=
    lineStep_dat_low_clock .low 0 s hc
  rw [execAll_cons_of_next set_up, execAll_cons_of_next sample, execAll_cons_of_next stop]
  rfl

end Transaction

/-! ### The statements -/

/-- Settles O2: an event decodes to the event of its fields, and a query by its line of the opcode map. -/
theorem decodeOfEncode : Obligations.DecodeOfEncode := by
  intro p i h
  have fits := encode_fits h
  cases i with
  | clkLo t => exact decode_encode_eventInstr (line := .clk) (level := .low) h
  | clkHi t => exact decode_encode_eventInstr (line := .clk) (level := .high) h
  | datLo t => exact decode_encode_eventInstr (line := .dat) (level := .low) h
  | datHi t => exact decode_encode_eventInstr (line := .dat) (level := .high) h
  | qLatest => exact decodeInput_queryWord (by decide) fits
  | qSecondLatest => exact decodeInput_queryWord (by decide) fits
  | qFind pidx => exact decodeInput_queryWord (by decide) fits

/-- Settles O35: the START, the address group, the byte groups and the STOP, one after the other. -/
theorem transactionDecodesToItsPacket : Obligations.TransactionDecodesToItsPacket := by
  intro a d k bytes time s p hu hts hc hd ht hp
  have infinite : s.params.maxData = none := hu.1
  have quiet : emission (9 + 9 * bytes.length + 1) = .none := emission_none.mpr (.inr (by omega))
  have stop := execAll_stop (time := time) (s := grouped a d k bytes s) hu quiet rfl rfl rfl
  have count : 9 + 9 * bytes.length + 1 = 9 * bytes.length + 10 := by omega
  rw [transactionEvents, execAll_append_of_next (execAll_groups a d k bytes infinite hc hd ht), stop,
    closedPacket_grouped hts, ← hp, hc, hd, ht, ← count]
  rfl

/-- Settles O3: an event word and a query word are each built of their own fields; a reset or an attach input is no instruction. -/
theorem encodeOfDecode : Obligations.EncodeOfDecode := by
  intro p x i h
  have fits := fits_of_decodeInput h
  cases x with
  | event w =>
    rw [decodeInput_event fits] at h
    cases h
    rw [encode_eventInstr, eventWord_of_fields, wellFormed_eventInstr]
    exact ⟨rfl, fits_event p w ▸ fits, fits⟩
  | query q =>
    obtain ⟨word, wf⟩ := encode_of_decodeInput_query h
    exact ⟨word, wf, fits⟩
  | reset e =>
    rw [decodeInput_reset fits] at h
    cases h
  | attach => cases h

/-- Settles O4: the four values of the two low bits are the four pairs of a line and a level. -/
theorem everyEventWordIsLegal : Obligations.EveryEventWordIsLegal := by
  intro p w fits
  have low : w % 4 < 4 := Nat.mod_lt _ (by decide)
  rw [decodeInput_event fits, eventLine, eventLevel, bitAt_zero, bitAt_one]
  generalize w % 4 = bits at low ⊢
  interval_cases bits <;> rfl

/-- Settles O5. -/
theorem queryWordsByOpcode : Obligations.QueryWordsByOpcode :=
  fun _ _ _ hop fits => decodeInput_queryWord hop fits

/-- Settles O1. -/
theorem sampleWordsDecode : Obligations.SampleWordsDecode :=
  ⟨rfl, rfl, rfl, rfl, rfl, rfl, rfl, rfl, rfl, rfl, rfl, rfl, rfl⟩

/-- Settles O6: of the four lines of the opcode map only the last fits the fields of a reserved word. -/
theorem reservedQueryRefused : Obligations.ReservedQueryRefused := by
  intro s rest op pidx hop fits reserved hp
  refine step_of_decode_error (e := .reservedQuery) hp
    ((queryWordsByOpcode s.params op pidx hop fits).trans ?_)
  rw [if_neg (by omega), if_neg (by omega), if_neg (by omega)]

end Sys2Proof.Machine
end

section
/-! SUPPORT and PROOFS for the family `40_edge_classifier.md`. No action writes a line register, so a completed event leaves both
registers as its classification set them; the statements are uses of this and of the lemmas on events at the recorded level. -/

namespace Sys2Proof.Machine

/-- The classification alone writes the line registers: a bit sample, a START and a STOP each keep both (R101, R102). -/
theorem recordedLevel_eq_of_lineStep {line : Line} {level : Level} {time : Nat} {s s' : State}
    (h : lineStep line level time s = .next s') :
    recordedLevel s' = recordedLevel (recordLevel line level s) := by
  obtain ⟨t, rfl, rfl, -, ht, sample⟩ | ⟨rfl, rfl, -, -, start⟩ | ⟨t, rfl, rfl, -, -, -, stop⟩ | rfl :=
    lineStep_next h
  · obtain ⟨acc, par, rfl⟩ := sampleInto_frame (s := { s with clk := .high }) ht sample
    rfl
  · obtain ⟨qs, rfl, -⟩ := startAction_next start
    rfl
  · obtain ⟨-, old, rfl, -⟩ := stopTxn_next stop
    rfl
  · rfl

/-! ### The statements -/

/-- Settles O14: both registers are those of the state in which the event's level is recorded. -/
theorem lineRegistersFollowEvents : Obligations.LineRegistersFollowEvents := by
  intro level time s s'
  simp only [exec_eventInstr]
  constructor
  · intro h
    have registers := recordedLevel_eq_of_lineStep h
    exact ⟨congrFun registers .clk, congrFun registers .dat⟩
  · intro h
    have registers := recordedLevel_eq_of_lineStep h
    exact ⟨congrFun registers .dat, congrFun registers .clk⟩

/-- Settles O15: recording the level that is recorded changes nothing, and a STEADY line runs no action. -/
theorem redundantEventChangesNothing : Obligations.RedundantEventChangesNothing := by
  intro line time s
  rw [exec_eventInstr]
  exact lineStep_recordedLevel line time s

/-- Settles O12: the four rows of the table of R100. -/
theorem classifierTable : Obligations.ClassifierTable :=
  ⟨rfl, rfl, rfl, rfl⟩

/-- Settles O13: for either line, `classifyEvent` is the pair that R102 writes. -/
theorem classifierPerEvent : Obligations.ClassifierPerEvent :=
  fun _ _ => ⟨rfl, rfl⟩

end Sys2Proof.Machine
end

section
/-! SUPPORT and PROOFS for the family `41_line_events.md`. First the step of an event by the three conditions of R110, each read off the
state before the event; then that every action completes where no capacity is finite; last the statements, each a use of these. -/

namespace Sys2Proof.Machine

/-! ### The step by the conditions of the event -/

section Event
variable (line : Line) (level : Level) (time : Nat) (s : State)

theorem parcelOpen_iff_par_ne_none : parcelOpen s = true ↔ s.par ≠ none :=
  Option.isSome_iff_ne_none

@[simp] theorem recordLevel_par : (recordLevel line level s).par = s.par := by
  cases line <;> rfl

@[simp] theorem recordLevel_params : (recordLevel line level s).params = s.params := by
  cases line <;> rfl

/-- The clock is RISING exactly at a clock rise (R100, R102). -/
theorem edgesOf_clk_eq_rising : (edgesOf line level s).clk = .rising ↔ ClockRise line level s := by
  cases line with
  | clk => simp [edgesOf, classify_eq_rising, and_comm]
  | dat => simp [edgesOf]

/-- The test of R110 for a START is the START condition: a data event leaves the clock's register alone. -/
theorem startTest_iff_startCondition :
    ((edgesOf line level s).clk = .steady ∧ (recordLevel line level s).clk = .high ∧
      (edgesOf line level s).dat = .falling) ↔ StartCondition line level s := by
  cases line with
  | clk => simp [edgesOf]
  | dat => simp [edgesOf, classify_eq_falling, and_comm, and_left_comm]

/-- The test of R110 for a STOP is the STOP condition, with a parcel open. -/
theorem stopTest_iff_stopCondition :
    ((edgesOf line level s).clk = .steady ∧ (recordLevel line level s).clk = .high ∧
      (edgesOf line level s).dat = .rising ∧ s.par ≠ none) ↔
      StopCondition line level s ∧ s.par ≠ none := by
  cases line with
  | clk => simp [edgesOf]
  | dat => simp [edgesOf, classify_eq_rising, and_assoc, and_left_comm]

/-- The step of an event by the three conditions of R110, each a condition on the state before the event. -/
theorem lineStep_eq :
    lineStep line level time s =
      if ClockRise line level s ∧ s.par ≠ none then bitSample (recordLevel line level s)
      else if StartCondition line level s then startAction (recordLevel line level s)
      else if StopCondition line level s ∧ s.par ≠ none then
        stopAction time (recordLevel line level s)
      else .next (recordLevel line level s) := by
  simp only [lineStep, classifyEvent, parcelOpen_iff_par_ne_none, recordLevel_par,
    edgesOf_clk_eq_rising, startTest_iff_startCondition, stopTest_iff_stopCondition]

variable {line level s} in
/-- An event whose level its line already has is a full no-op (R112). -/
theorem lineStep_of_recorded (h : recordedLevel s line = level) :
    lineStep line level time s = .next s := by
  rw [← h]
  exact lineStep_recordedLevel line time s

end Event

/-! ### Actions without a finite capacity -/

section Unbounded
variable {s : State}

/-- A bit sample can stop only at `MAX_DATA` (R143). -/
theorem bitSample_completes (infinite : s.params.maxData = none) : ∃ s', bitSample s = .next s' := by
  unfold bitSample
  cases s.txn with
  | none => exact ⟨s, rfl⟩
  | some t =>
    cases he : emission (s.n + 1) with
    | addr => exact ⟨_, sampleInto_of_addr he⟩
    | dir => exact ⟨_, sampleInto_of_dir he⟩
    | data => exact ⟨_, sampleInto_of_data he (by simp [infinite])⟩
    | ack => exact ⟨_, sampleInto_of_ack he⟩
    | none => exact ⟨_, sampleInto_of_none he⟩

/-- A START can stop only at `MAX_PARCELS` (R163). -/
theorem startAction_completes (infinite : s.params.maxParcels = none) :
    ∃ s', startAction s = .next s' := by
  cases ht : s.txn with
  | none => simp [startAction, ht]
  | some t => simp [startAction, ht, infinite]

/-- A STOP can stop only at `MAX_PARCELS` or `HIST_CAP` (R52, R163). -/
theorem stopAction_completes (hu : Unbounded s.params) (time : Nat) :
    ∃ s', stopAction time s = .next s' := by
  unfold stopAction
  cases s.txn with
  | none => exact ⟨s, rfl⟩
  | some t => exact ⟨_, stopTxn_of_unbounded hu⟩

theorem lineStep_completes (hu : Unbounded s.params) (line : Line) (level : Level) (time : Nat) :
    ∃ s', lineStep line level time s = .next s' := by
  have recorded : Unbounded (recordLevel line level s).params := by rwa [recordLevel_params]
  have ⟨data, parcels, _⟩ := recorded
  rw [lineStep_eq]
  split_ifs
  · exact bitSample_completes data
  · exact startAction_completes parcels
  · exact stopAction_completes recorded time
  · exact ⟨_, rfl⟩

end Unbounded

/-! ### The statements -/

/-- Settles O18: each condition fails, so only the classifier's record of the level is left. -/
theorem otherEventsOnlyRecordTheLevel : Obligations.OtherEventsOnlyRecordTheLevel := by
  intro line level time s noSample noStart noStop
  rw [exec_eventInstr, lineStep_eq, if_neg noSample, if_neg noStart, if_neg noStop]
  cases line <;> rfl

/-- Settles O19: CLK_LO meets no condition, whatever the clock's level was. -/
theorem clkLoOnlyRecordsTheLevel : Obligations.ClkLoOnlyRecordsTheLevel := by
  intro time s
  exact ⟨rfl, fun _ => exec_clkLo time s, lineStep_of_recorded (line := .clk) time⟩

/-- Settles O20: a rise is a bit sample with a parcel open and meets no condition without one. -/
theorem clkHiSamplesOnARise : Obligations.ClkHiSamplesOnARise := by
  intro time s
  refine ⟨rfl, fun _ closed => ?_, fun low opened => ?_,
    lineStep_of_recorded (line := .clk) time⟩
  · exact otherEventsOnlyRecordTheLevel .clk .high time s (by simp [closed]) (by simp) (by simp)
  · exact (lineStep_eq .clk .high time s).trans (if_pos ⟨⟨rfl, rfl, low⟩, opened⟩)

/-- Settles O24: a fall is a START with the clock high and meets no condition with it low. -/
theorem datLoStartsOnAFall : Obligations.DatLoStartsOnAFall := by
  intro time s
  exact ⟨rfl, fun fall high => exec_datLo_of_startCondition high fall,
    fun _ low => lineStep_dat_low_clock .low time s low, lineStep_of_recorded (line := .dat) time⟩

/-- Settles O26: a rise is a STOP with the clock high and a parcel open, and otherwise meets no condition. -/
theorem datHiStopsOnARise : Obligations.DatHiStopsOnARise := by
  intro time s
  refine ⟨rfl, fun rise high opened => ?_, fun _ noStop => ?_,
    lineStep_of_recorded (line := .dat) time⟩
  · have stop : StopCondition .dat .high s ∧ s.par ≠ none := ⟨⟨rfl, rfl, high, rise⟩, opened⟩
    refine (lineStep_eq .dat .high time s).trans ?_
    rw [if_neg (by simp), if_neg (by simp), if_pos stop]
    rfl
  · refine otherEventsOnlyRecordTheLevel .dat .high time s (by simp) (by simp) ?_
    rintro ⟨⟨-, -, high, -⟩, opened⟩
    obtain low | closed := noStop
    · simp [low] at high
    · exact opened closed

/-- Settles O29: of the branches of the step only the STOP names the time. -/
theorem timeMattersOnlyToStop : Obligations.TimeMattersOnlyToStop := by
  intro line level time time' s noStop
  simp only [exec_eventInstr, lineStep_eq, if_neg noStop]

/-- Settles O44: an event runs an action that completes, and a query only replies. -/
theorem unboundedBlockNeverStops : Obligations.UnboundedBlockNeverStops := by
  intro i s hu
  obtain ⟨line, level, time, -, event⟩ | ⟨-, answer, query⟩ := exec_cases i
  · rw [event]
    exact lineStep_completes hu line level time
  · exact ⟨_, query s⟩

/-- Settles O17: the two readings of an open parcel agree in the state after classification. -/
theorem eventsFollowTheStep : Obligations.EventsFollowTheStep := by
  rintro line level time s s₁ c ⟨⟩
  simp only [exec_eventInstr, lineStep, classifyEvent, parcelOpen_iff_par_ne_none]

end Sys2Proof.Machine
end


section
/-! SUPPORT and PROOFS for the family `42_bit_sampling.md`. First what a rising clock does by the emission of the new count, then the
width of the accumulator at each emission and the phase counter; last the statements, each a use of these. -/

namespace Sys2Proof.Machine

/-! ### The emission by the position in a group -/

theorem emission_data_of_groupPosition {n : Nat} (hn : 8 < n) (hk : groupPosition n = 8) :
    emission n = .data := by
  unfold groupPosition at hk
  exact emission_data.mpr ⟨hn, by omega⟩

theorem emission_ack_of_groupPosition {n : Nat} (hn : 8 < n) (hk : groupPosition n = 9) :
    emission n = .ack := by
  unfold groupPosition at hk
  exact emission_ack.mpr ⟨hn, by omega⟩

theorem emission_none_of_groupPosition {n : Nat}
    (h : n < 7 ∨ (8 < n ∧ groupPosition n ≠ 8 ∧ groupPosition n ≠ 9)) : emission n = .none := by
  unfold groupPosition at h
  exact emission_none.mpr (by omega)

/-- Past the direction bit only the residue modulo 9 of the count matters (R132). -/
theorem emission_of_data_group {n : Nat} (hn : 8 < n) :
    emission n = if n % 9 = 8 then .data else if n % 9 = 0 then .ack else .none := by
  rw [emission_eq, if_neg (by omega), if_neg (by omega)]
  simp only [hn, true_and]

/-! ### The values latched -/

theorem shiftIn_eq (acc : Nat) (d : Level) :
    shiftIn acc d = acc * 2 + (if d = .high then 1 else 0) := by
  cases d <;> rfl

theorem eq_latchAddress {v : Address} {a : Nat} (h : v.toNat = a) : v = latchAddress a := by
  rw [← h, latchAddress_toNat]

theorem eq_latchByte {v : Byte} {a : Nat} (h : v.toNat = a) : v = latchByte a := by
  rw [← h, latchByte_toNat]

theorem toNat_latchAddress {a : Nat} (h : a < 2 ^ 7) : (latchAddress a).toNat = a :=
  (BitVec.toNat_ofNat ..).trans (Nat.mod_eq_of_lt h)

theorem toNat_latchByte {a : Nat} (h : a < 2 ^ 8) : (latchByte a).toNat = a :=
  (BitVec.toNat_ofNat ..).trans (Nat.mod_eq_of_lt h)

/-- A byte completed into a parcel with no room for it stops the model (R143). -/
theorem sampleInto_of_full_data {t : OpenTxn} {s : State} (he : emission (s.n + 1) = .data)
    (full : s.params.maxData = some t.par.data.length) :
    sampleInto t s = .fault (.capacityExceeded .data) := by
  simp only [sampleInto, he, (atCapacity_iff ..).mpr full, if_true, capacityFault]

/-! ### How many bits the accumulator holds -/

theorem bitsHeld_lt_eight (n : Nat) : bitsHeld n < 8 := by
  unfold bitsHeld
  split_ifs <;> omega

/-- Six bits are held before the one that completes an address (R133). -/
theorem bitsHeld_of_emission_addr {n : Nat} (h : emission (n + 1) = .addr) : bitsHeld n = 6 := by
  obtain rfl : n = 6 := Nat.succ.inj (emission_addr.mp h)
  rfl

/-- No bit is held before the direction bit (R134). -/
theorem bitsHeld_of_emission_dir {n : Nat} (h : emission (n + 1) = .dir) : bitsHeld n = 0 := by
  obtain rfl : n = 7 := Nat.succ.inj (emission_dir.mp h)
  rfl

/-- Seven bits are held before the one that completes a data byte (R135). -/
theorem bitsHeld_of_emission_data {n : Nat} (h : emission (n + 1) = .data) : bitsHeld n = 7 := by
  have hn := emission_data.mp h
  unfold bitsHeld
  split_ifs <;> omega

/-! ### The phase counter -/

theorem phase_le (n : Nat) : phase n ≤ 18 := by
  unfold phase
  split <;> omega

theorem phase_succ (n : Nat) : phase (n + 1) = phaseSucc (phase n) := by
  unfold phase phaseSucc
  split_ifs <;> omega

/-- A count and its phase emit the same: up to 9 they are equal, and from 10 on they agree modulo 9 (R140). -/
theorem emission_phase (n : Nat) : emission (phase n) = emission n := by
  by_cases h : n ≤ 9
  · rw [phase, if_pos h]
  · have residue : (10 + (n - 10) % 9) % 9 = n % 9 := by omega
    rw [phase, if_neg h, emission_of_data_group (by omega), emission_of_data_group (by omega),
      residue]

/-- The table of the 19 phases (R140). -/
theorem emission_eq_emissionOfPhase : ∀ φ ≤ 18, emission φ = emissionOfPhase φ := by
  decide

/-! ### The statements -/

/-- Settles O21: each clause fixes the emission of the new count, and the emission fixes what the rising clock does. -/
theorem bitSampleByCount : Obligations.BitSampleByCount := by
  rintro time s t a m k hc ht ha rfl rfl
  obtain rfl : a = shiftIn s.acc s.dat := ha.trans (shiftIn_eq ..).symm
  rw [exec_clkHi_of_clockRise hc ht]
  refine ⟨fun hm v hv => ?_, fun hm => ?_, fun hm hpos room v hv => ?_, fun hm hpos => ?_,
    fun quiet => ?_⟩
  · rw [eq_latchAddress hv]
    exact sampleInto_of_addr (emission_addr.mpr hm)
  · exact sampleInto_of_dir (emission_dir.mpr hm)
  · rw [eq_latchByte hv]
    exact sampleInto_of_data (emission_data_of_groupPosition hm hpos) room
  · exact sampleInto_of_ack (emission_ack_of_groupPosition hm hpos)
  · exact sampleInto_of_none (emission_none_of_groupPosition quiet)

/-- Settles O22: the new count emits DATA, and the parcel has no room for the byte. -/
theorem dataCapacityFault : Obligations.DataCapacityFault := by
  intro time s t hc ht hm hpos full
  rw [exec_clkHi_of_clockRise hc ht]
  exact sampleInto_of_full_data (emission_data_of_groupPosition hm hpos) full

/-- Settles O23: the new count emits ACK, and the sample of an acknowledgment bit does not read the data level. -/
theorem acknowledgmentIsDiscarded : Obligations.AcknowledgmentIsDiscarded := by
  intro time s d hc opened hm hpos
  obtain ⟨t, ht⟩ := (parcelOpen_iff s).mp ((parcelOpen_iff_par_ne_none s).mpr opened)
  rw [exec_clkHi_of_clockRise (s := { s with dat := d }) hc ht]
  exact sampleInto_of_ack (emission_ack_of_groupPosition hm hpos)

/-- Settles O32: a count emits what its phase does, and the phases are finitely many. -/
theorem phaseCounterSuffices : Obligations.PhaseCounterSuffices :=
  ⟨rfl, fun n => ⟨phase_le n, phase_succ n,
    (emission_phase n).symm.trans (emission_eq_emissionOfPhase _ (phase_le n))⟩⟩

/-- Settles O38: the invariant bounds the accumulator by the bits held, and each emission fixes how many those are. -/
theorem accumulatorLosesNothing : Obligations.AccumulatorLosesNothing := by
  intro s hI
  have shifted : shiftIn s.acc s.dat < 2 ^ (bitsHeld s.n + 1) := shiftIn_lt hI.acc s.dat
  refine ⟨?_, fun he => ?_, fun he => ?_, fun he => ?_⟩
  · exact hI.acc.trans (Nat.pow_lt_pow_right (by decide) (bitsHeld_lt_eight s.n))
  · rw [bitsHeld_of_emission_addr he] at shifted
    exact toNat_latchAddress shifted
  · rw [bitsHeld_of_emission_dir he] at shifted
    exact Nat.le_of_lt_succ shifted
  · rw [bitsHeld_of_emission_data he] at shifted
    exact toNat_latchByte shifted

/-- Settles O31, a table of fixed values. -/
theorem emissionTable : Obligations.EmissionTable := by
  unfold Obligations.EmissionTable
  decide

end Sys2Proof.Machine
end


section
/-! SUPPORT and PROOFS for the family `43_start_stop.md`. First the equations of a START and of a STOP by the room there is; then what each
action does to the machine of R164; then that a history without a capacity keeps pace with the outputs; last the statements, each a use
of these. -/

namespace Sys2Proof.Machine

/-! ### START and STOP by the room there is -/

section Room
variable {t : OpenTxn} {s : State}

/-- With no Packet open, a START opens one (R152). -/
theorem startAction_of_idle (ht : s.txn = none) :
    startAction s = .next { s with
      txn := some { pkt := PacketInProgress.empty, par := Parcel.empty }, acc := 0, n := 0 } := by
  simp only [startAction, ht]

/-- With room in the open Packet, a START attaches the open Parcel as it stands (R153). -/
theorem startAction_of_room (ht : s.txn = some t)
    (room : s.params.maxParcels ≠ some t.pkt.parcels.length) :
    startAction s = .next { s with
      txn := some { pkt := { parcels := attachParcel t }, par := Parcel.empty }, acc := 0, n := 0 } := by
  simp only [startAction, ht, (atCapacity_eq_false ..).mpr room, Bool.false_eq_true, if_false]

/-- A START whose open Packet is full faults (R163). -/
theorem startAction_of_full (ht : s.txn = some t)
    (full : s.params.maxParcels = some t.pkt.parcels.length) :
    startAction s = capacityFault .parcels := by
  simp only [startAction, ht, (atCapacity_iff ..).mpr full, if_true]

theorem histAppend_of_room (p : Packet) (room : s.params.histCap ≠ some s.hist.length) :
    histAppend p s = .next { s with hist := s.hist ++ [p] } :=
  if_neg (mt (atCapacity_iff ..).mp room)

end Room

/-! ### The machine of R164 -/

section Phase
variable {t : OpenTxn} {s s' : State}

theorem machinePhase_of_closed (ht : s.txn = none) : machinePhase s = .idle := by
  simp [machinePhase, packetOpen, State.pkt, ht]

theorem machinePhase_of_open (ht : s.txn = some t) : machinePhase s = .opened := by
  simp [machinePhase, packetOpen, State.pkt, ht]

/-- The machine is OPEN exactly with a parcel open: the pair is present or absent together (R30). -/
theorem machinePhase_eq_opened : machinePhase s = .opened ↔ s.par ≠ none := by
  rw [← parcelOpen_iff_par_ne_none, ← packetOpen_eq_parcelOpen]
  simp [machinePhase]

@[simp] theorem recordLevel_machinePhase (line : Line) (level : Level) (s : State) :
    machinePhase (recordLevel line level s) = machinePhase s := by
  cases line <;> rfl

@[simp] theorem recordLevel_n (line : Line) (level : Level) (s : State) :
    (recordLevel line level s).n = s.n := by
  cases line <;> rfl

/-- A bit sample in OPEN stays there and counts one bit (R131). -/
theorem bitSample_phase (opened : machinePhase s = .opened) (h : bitSample s = .next s') :
    machinePhase s' = .opened ∧ s'.n = s.n + 1 := by
  obtain ⟨t, ht⟩ := (parcelOpen_iff s).mp
    ((parcelOpen_iff_par_ne_none s).mpr (machinePhase_eq_opened.mp opened))
  simp only [bitSample, ht] at h
  obtain ⟨acc, par, rfl⟩ := sampleInto_frame ht h
  exact ⟨machinePhase_of_open rfl, rfl⟩

/-- A START leads to OPEN from either state, and its new parcel has no bit (R151). -/
theorem startAction_phase (h : startAction s = .next s') : machinePhase s' = .opened ∧ s'.n = 0 := by
  obtain ⟨qs, rfl, -⟩ := startAction_next h
  exact ⟨machinePhase_of_open rfl, rfl⟩

/-- A STOP leads to IDLE and keeps the bit count (R159). -/
theorem stopAction_phase {time : Nat} (h : stopAction time s = .next s') :
    machinePhase s' = .idle ∧ s'.n = s.n := by
  cases ht : s.txn with
  | none =>
    simp only [stopAction, ht] at h
    cases h
    exact ⟨machinePhase_of_closed ht, rfl⟩
  | some t =>
    simp only [stopAction, ht] at h
    obtain ⟨-, old, rfl, -⟩ := stopTxn_next h
    exact ⟨machinePhase_of_closed rfl, rfl⟩

end Phase

/-! ### A history without a capacity -/

section History
variable {s s' : State}

/-- Without a capacity a STOP evicts nothing, so history and outputs gain the same Packet (R167). -/
theorem stopTxn_hist_eq_outputs {t : OpenTxn} {time : Nat} (infinite : s.params.histCap = none)
    (same : s.hist = s.outputs.map OutRecord.packet) (h : stopTxn t time s = .next s') :
    s'.hist = s'.outputs.map OutRecord.packet := by
  obtain ⟨-, old, rfl, ⟨rfl, -⟩ | ⟨-, full, -⟩⟩ := stopTxn_next h
  · simp [same]
  · simp [infinite] at full

theorem exec_hist_eq_outputs {i : Instr} (infinite : s.params.histCap = none)
    (same : s.hist = s.outputs.map OutRecord.packet) (h : exec i s = .next s') :
    s'.hist = s'.outputs.map OutRecord.packet := by
  cases exec_effect h with
  | query r hq hs => simpa [hs] using same
  | record line level time hs => simpa [hs] using same
  | sample t time hc ht hs =>
    obtain ⟨acc, par, rfl⟩ := sampleInto_frame (s := recordLevel .clk .high s) ht hs
    exact same
  | start time hc hd hs =>
    obtain ⟨qs, rfl, -⟩ := startAction_next hs
    exact same
  | stop t time hc hd ht hs =>
    exact stopTxn_hist_eq_outputs (s := recordLevel .dat .high s) infinite same hs

end History

/-! ### The statements -/

/-- Settles O25: with the clock high the fall is a START, and the room in the open Packet decides what it does. -/
theorem startOpensOrAttaches : Obligations.StartOpensOrAttaches := by
  intro time s hc hd
  rw [exec_datLo_of_startCondition hc hd]
  exact ⟨startAction_of_idle (s := recordLevel .dat .low s),
    fun _ => startAction_of_room (s := recordLevel .dat .low s),
    fun _ => startAction_of_full (s := recordLevel .dat .low s)⟩

/-- Settles O27: the Packet described is the one the STOP closes, and there is room to attach and to append. -/
theorem stopClosesThePacket : Obligations.StopClosesThePacket := by
  intro time s t p hc hd ht room histRoom parcels infinite finite
  have closed : p = closedPacket t time (recordLevel .dat .high s) :=
    eq_closedPacket parcels infinite finite
  rw [exec_datHi_of_stopCondition hc hd ht, stopTxn_of_room (s := recordLevel .dat .high s) room,
    histAppend_of_room (s := recordLevel .dat .high s) _ histRoom, andThen_next, ← closed]
  rfl

/-- Settles O30: one case per branch of the step of an event; a STOP condition in IDLE finds the machine where a STOP would leave it. -/
theorem packetStateMachine : Obligations.PacketStateMachine := by
  intro line level time s s' h
  rw [exec_eventInstr, lineStep_eq] at h
  simp only [← machinePhase_eq_opened] at h
  split_ifs at h with rise start stop
  · obtain ⟨phase, count⟩ := bitSample_phase (by simpa using rise.2) h
    obtain ⟨rfl, -⟩ := rise.1
    have noStart : ¬ StartCondition .clk level s := by simp
    have noStop : ¬ StopCondition .clk level s := by simp
    rw [if_neg noStart, if_neg noStart, if_neg noStop, if_pos rise, phase, rise.2]
    exact ⟨rfl, by simpa using count⟩
  · rw [if_pos start, if_pos start]
    exact startAction_phase h
  · obtain ⟨phase, count⟩ := stopAction_phase h
    rw [if_neg start, if_neg start, if_pos stop.1, if_neg rise]
    exact ⟨phase, by simpa using count⟩
  · cases h
    rw [if_neg start, if_neg start, if_neg rise, recordLevel_machinePhase, recordLevel_n]
    refine ⟨?_, rfl⟩
    split_ifs with condition
    · cases hp : machinePhase s with
      | idle => rfl
      | opened => exact absurd ⟨condition, hp⟩ stop
    · rfl

/-- Settles O42: a reset input empties history and outputs alike, and of the other inputs only an instruction can write them. -/
theorem historyIsTheOutputs : Obligations.HistoryIsTheOutputs := by
  intro s s' infinite same h
  obtain ⟨-, rfl⟩ | ⟨x, rest, -, ⟨i, -, h⟩ | ⟨e, -, rfl⟩ | ⟨-, rfl⟩⟩ := step_next h
  · exact ⟨infinite, same⟩
  · have fixed := (epochAndParametersAreFixed i _ _ h).params
    exact ⟨fixed ▸ infinite, exec_hist_eq_outputs (s := takeInput rest s) infinite same h⟩
  · exact ⟨infinite, rfl⟩
  · exact ⟨infinite, same⟩

end Sys2Proof.Machine
end

section
/-! SUPPORT and PROOFS for the family `44_packet_model.md`. Each function of the packet model goes by the shape of the list of
parcels: it has an equation per shape here, and the tests hold of one shape each. -/

namespace Sys2Proof.Machine

section Shape

variable {p : Packet} {a b : Parcel} {rest : List Parcel}

theorem register_of_nil (h : p.parcels = []) : register p = none := by
  rw [register, h]

theorem register_of_cons (h : p.parcels = a :: rest) : register p = a.data.head? := by
  rw [register, h]

theorem payload_of_read (h : p.parcels = a :: b :: rest) (read : isRead p = true) : payload p = b.data := by
  rw [payload, h]
  exact if_pos read

theorem payload_of_not_read (h : p.parcels = a :: rest) (read : isRead p = false) :
    payload p = a.data.tail := by
  rw [payload, h]
  exact if_neg (by rw [read]; decide)

end Shape

/-! ### The statements -/

/-- Settles O52: of the lists of parcels only those of length one can pass. -/
theorem writePacketTest : Obligations.WritePacketTest := by
  rintro ⟨_, parcels⟩
  match parcels with
  | [] => simp [isWrite]
  | [_] => simp [isWrite]
  | _ :: _ :: _ => simp [isWrite]

/-- Settles O53: of the lists of parcels only those of length two can pass. -/
theorem readPacketTest : Obligations.ReadPacketTest := by
  rintro ⟨_, parcels⟩
  match parcels with
  | [] => simp [isRead]
  | [_] => simp [isRead]
  | [_, _] => simp [isRead]
  | _ :: _ :: _ :: _ => simp [isRead]

/-- Settles O54. -/
theorem registerIsTheFirstByte : Obligations.RegisterIsTheFirstByte := by
  refine fun p => ⟨fun a rest v vs parcels data => ?_, fun a rest parcels data => ?_, register_of_nil⟩
  · rw [register_of_cons parcels, data, List.head?_cons]
  · rw [register_of_cons parcels, data, List.head?_nil]

/-- Settles O55: the read packet test fixes the second parcel of a read packet as its last. -/
theorem payloadOfAPacket : Obligations.PayloadOfAPacket := by
  intro p a rest parcels
  constructor
  · intro read
    obtain ⟨_, b, two, -, -⟩ := (readPacketTest p).mp read
    obtain ⟨-, rfl⟩ := List.cons.inj (parcels.symm.trans two)
    exact ⟨b, rfl, payload_of_read two read⟩
  · intro notRead
    rw [payload_of_not_read parcels notRead, List.drop_one]

/-- Settles O56: a write packet has one parcel and a read packet two. -/
theorem writeAndReadExclude : Obligations.WriteAndReadExclude := by
  rintro p ⟨write, read⟩
  obtain ⟨_, one, -⟩ := (writePacketTest p).mp write
  obtain ⟨_, _, two, -, -⟩ := (readPacketTest p).mp read
  simpa using one.symm.trans two

end Sys2Proof.Machine
end

section
/-! SUPPORT and PROOFS for the family `45_history.md`. First what each function of the History Buffer answers by the shape of the
history; then that a query instruction replies with that answer; last the statements, each a use of these. -/

namespace Sys2Proof.Machine

/-! ### The answers by the shape of the history -/

section Answers

variable {f : Packet → Bool} {hist older newer : List Packet} {p q : Packet}

theorem latest_nil : latest [] = { status := .emptyHistory, packet := none } := rfl

theorem secondLatest_of_short (short : hist.length < 2) :
    secondLatest hist = { status := .insufficientHistory, packet := none } :=
  if_pos short

theorem secondLatest_append_pair :
    secondLatest (older ++ [p, q]) = { status := .found, packet := some p } := by
  simp [secondLatest, foundAt, histAt]

theorem findLatestMatching_of_no_match (noMatch : ∀ k ∈ hist, f k = false) :
    findLatestMatching f hist = { status := .notFound, packet := none } := by
  obtain ⟨answer, -⟩ | ⟨j, -, -, found, -⟩ := scanDown_found (f := f) (hist := hist) rfl
  · exact answer
  · obtain ⟨k, at_j, holds⟩ := (Option.any_eq_true _ _).mp found
    simp [noMatch k (List.mem_of_getElem? at_j)] at holds

theorem histAt_append_length : histAt (older ++ p :: newer) older.length = some p := by
  simp [histAt]

theorem mem_newer_of_histAt {j : Nat} (after : older.length < j)
    (at_j : histAt (older ++ p :: newer) j = some q) : q ∈ newer := by
  obtain ⟨d, rfl⟩ := Nat.exists_eq_add_of_lt after
  have at_d : newer[d]? = some q := by
    simpa [histAt, Nat.add_assoc, List.getElem?_append_right] using at_j
  exact List.mem_of_getElem? at_d

/-- The position the scan stops at is neither older than `p`, which satisfies `f`, nor newer, where nothing does (R193). -/
theorem findLatestMatching_of_newest_match (holds : f p = true) (noNewer : ∀ k ∈ newer, f k = false) :
    findLatestMatching f (older ++ p :: newer) = { status := .found, packet := some p } := by
  have inside : older.length < (older ++ p :: newer).length := by simp
  have match_p : (histAt (older ++ p :: newer) older.length).any f = true := by
    rw [histAt_append_length]
    exact holds
  obtain ⟨-, noMatch⟩ | ⟨j, -, answer, found, noneAfter⟩ :=
    scanDown_found (f := f) (hist := older ++ p :: newer) rfl
  · exact absurd match_p (Bool.eq_false_iff.mp (noMatch _ inside))
  · obtain before | rfl | after := Nat.lt_trichotomy j older.length
    · exact absurd match_p (Bool.eq_false_iff.mp (noneAfter _ before inside))
    · rw [findLatestMatching, answer, foundAt, histAt_append_length]
    · obtain ⟨k, at_j, holds_k⟩ := (Option.any_eq_true _ _).mp found
      simp [noNewer k (mem_newer_of_histAt after at_j)] at holds_k

end Answers

/-! ### The replies -/

section Replies

variable {s : State} {r : QueryResult}

theorem exec_qLatest_of_answer (h : latest s.hist = r) : exec .qLatest s = .next (reply r s) :=
  h ▸ rfl

theorem exec_qSecondLatest_of_answer (h : secondLatest s.hist = r) :
    exec .qSecondLatest s = .next (reply r s) :=
  h ▸ rfl

theorem exec_qFind_of_answer {pidx : Nat}
    (h : findLatestMatching (predicate s.params pidx) s.hist = r) :
    exec (.qFind pidx) s = .next (reply r s) :=
  h ▸ rfl

end Replies

/-! ### The statements -/

/-- Settles O48: the newest match is the position the scan stops at, and without a match it stops nowhere. -/
theorem qFindAnswersTheNewestMatch : Obligations.QFindAnswersTheNewestMatch := by
  refine fun s pidx => ⟨rfl, fun noMatch => ?_, fun older p newer shape holds noNewer => ?_⟩
  · exact exec_qFind_of_answer (findLatestMatching_of_no_match noMatch)
  · exact exec_qFind_of_answer (shape ▸ findLatestMatching_of_newest_match holds noNewer)

/-- Settles O50: the last Packet of the history is the newest match, with nothing newer. -/
theorem truePredicateFindsTheLatest : Obligations.TruePredicateFindsTheLatest := by
  intro f hist nonempty all
  obtain ⟨older, p, rfl⟩ := (List.eq_nil_or_concat' hist).resolve_left nonempty
  rw [latest_append]
  exact findLatestMatching_of_newest_match (all p (by simp)) (by simp)

/-- Settles O46. -/
theorem qLatestAnswersTheNewest : Obligations.QLatestAnswersTheNewest := by
  refine fun s => ⟨rfl, fun empty => ?_, fun older p shape => ?_⟩
  · exact exec_qLatest_of_answer (empty ▸ latest_nil)
  · exact exec_qLatest_of_answer (shape ▸ latest_append older p)

/-- Settles O47. -/
theorem qSecondLatestAnswersTheOneBefore : Obligations.QSecondLatestAnswersTheOneBefore := by
  refine fun s => ⟨rfl, fun short => ?_, fun older p q shape => ?_⟩
  · exact exec_qSecondLatest_of_answer (secondLatest_of_short short)
  · exact exec_qSecondLatest_of_answer (shape ▸ secondLatest_append_pair)

end Sys2Proof.Machine
end

section
/-! SUPPORT and PROOFS for the family `60_exceptions.md`. First the outcomes that R216 leaves an action; then that each action has one of
them, up to the step of an event; last the statements, each a use of these. -/

namespace Sys2Proof.Machine

/-! ### The outcomes of R216 -/

/-- The outcomes R216 leaves an action run in `s`: it completes, or with a packet open it faults at a finite capacity that `s` has
reached. No constructor is a refusal. -/
inductive CompletesOrAtCapacity (s : State) : Result → Prop
  | completes (s' : State) : CompletesOrAtCapacity s (.next s')
  | data {t : OpenTxn} (ht : s.txn = some t) (full : s.params.maxData = some t.par.data.length) :
      CompletesOrAtCapacity s (capacityFault .data)
  | parcels {t : OpenTxn} (ht : s.txn = some t)
      (full : s.params.maxParcels = some t.pkt.parcels.length) :
      CompletesOrAtCapacity s (capacityFault .parcels)
  | history {t : OpenTxn} (ht : s.txn = some t) (full : s.params.histCap = some s.hist.length)
      (policy : s.params.histOverflow = .fault) : CompletesOrAtCapacity s (capacityFault .history)

section Outcomes
variable {t : OpenTxn} {s : State} {r : Result}

theorem CompletesOrAtCapacity.ne_refused (h : CompletesOrAtCapacity s r) (e : Refusal) :
    r ≠ .refused e := by
  rintro rfl
  cases h

theorem CompletesOrAtCapacity.of_fault {f : Fault} (h : CompletesOrAtCapacity s (.fault f)) :
    ∃ t, s.txn = some t ∧
      ((f = .capacityExceeded .data ∧ s.params.maxData = some t.par.data.length) ∨
       (f = .capacityExceeded .parcels ∧ s.params.maxParcels = some t.pkt.parcels.length) ∨
       (f = .capacityExceeded .history ∧ s.params.histCap = some s.hist.length ∧
         s.params.histOverflow = .fault)) := by
  cases h with
  | data ht full => exact ⟨_, ht, .inl ⟨rfl, full⟩⟩
  | parcels ht full => exact ⟨_, ht, .inr (.inl ⟨rfl, full⟩)⟩
  | history ht full policy => exact ⟨_, ht, .inr (.inr ⟨rfl, full, policy⟩)⟩

/-- Recording a level touches neither a capacity nor what it bounds. -/
theorem CompletesOrAtCapacity.of_recordLevel {line : Line} {level : Level}
    (h : CompletesOrAtCapacity (recordLevel line level s) r) : CompletesOrAtCapacity s r := by
  cases h with
  | completes s' => exact .completes s'
  | data ht full => exact .data (by simpa using ht) (by simpa using full)
  | parcels ht full => exact .parcels (by simpa using ht) (by simpa using full)
  | history ht full policy =>
    exact .history (by simpa using ht) (by simpa using full) (by simpa using policy)

end Outcomes

/-! ### The actions -/

section Actions
variable {t : OpenTxn} {s : State}

/-- Of the emissions only DATA adds to a sequence with a capacity (R143). -/
theorem sampleInto_completesOrAtCapacity (ht : s.txn = some t) :
    CompletesOrAtCapacity s (sampleInto t s) := by
  cases he : emission (s.n + 1) with
  | addr => exact sampleInto_of_addr he ▸ .completes _
  | dir => exact sampleInto_of_dir he ▸ .completes _
  | data =>
    by_cases full : s.params.maxData = some t.par.data.length
    · exact sampleInto_of_full_data he full ▸ .data ht full
    · exact sampleInto_of_data he full ▸ .completes _
  | ack => exact sampleInto_of_ack he ▸ .completes _
  | none => exact sampleInto_of_none he ▸ .completes _

theorem bitSample_completesOrAtCapacity (s : State) : CompletesOrAtCapacity s (bitSample s) := by
  unfold bitSample
  cases ht : s.txn with
  | none => exact .completes s
  | some t => exact sampleInto_completesOrAtCapacity ht

/-- A START adds to a sequence with a capacity only where it attaches the open Parcel (R153, R163). -/
theorem startAction_completesOrAtCapacity (s : State) : CompletesOrAtCapacity s (startAction s) := by
  cases ht : s.txn with
  | none => exact startAction_of_idle ht ▸ .completes _
  | some t =>
    by_cases full : s.params.maxParcels = some t.pkt.parcels.length
    · exact startAction_of_full ht full ▸ .parcels ht full
    · exact startAction_of_room ht full ▸ .completes _

/-- A STOP attaches the open Parcel and appends to history, so either can be full (R52, R163). -/
theorem stopTxn_completesOrAtCapacity (ht : s.txn = some t) (time : Nat) :
    CompletesOrAtCapacity s (stopTxn t time s) := by
  by_cases full : s.params.maxParcels = some t.pkt.parcels.length
  · exact stopTxn_of_full_packet full ▸ .parcels ht full
  rw [stopTxn_of_room full]
  by_cases histFull : s.params.histCap = some s.hist.length
  · cases policy : s.params.histOverflow with
    | fault =>
      rw [histAppend_of_full_fault histFull policy]
      exact .history ht histFull policy
    | evictOldest =>
      rw [histAppend_of_full_evict histFull policy]
      exact .completes _
  · rw [histAppend_of_room _ histFull]
    exact .completes _

theorem stopAction_completesOrAtCapacity (time : Nat) (s : State) :
    CompletesOrAtCapacity s (stopAction time s) := by
  unfold stopAction
  cases ht : s.txn with
  | none => exact .completes s
  | some t => exact stopTxn_completesOrAtCapacity ht time

theorem lineStep_completesOrAtCapacity (line : Line) (level : Level) (time : Nat) (s : State) :
    CompletesOrAtCapacity s (lineStep line level time s) := by
  rw [lineStep_eq]
  split_ifs
  · exact (bitSample_completesOrAtCapacity _).of_recordLevel
  · exact (startAction_completesOrAtCapacity _).of_recordLevel
  · exact (stopAction_completesOrAtCapacity time _).of_recordLevel
  · exact .completes _

/-- An event runs an action and a query only replies. -/
theorem exec_completesOrAtCapacity (i : Instr) (s : State) : CompletesOrAtCapacity s (exec i s) := by
  obtain ⟨line, level, time, -, event⟩ | ⟨-, answer, query⟩ := exec_cases i
  · rw [event]
    exact lineStep_completesOrAtCapacity line level time s
  · rw [query]
    exact .completes _

end Actions

/-! ### The statements -/

/-- Settles O45: the outcomes of R216 hold no refusal, and each of its faults comes with its capacity. -/
theorem faultsOnlyAtAFiniteCapacity : Obligations.FaultsOnlyAtAFiniteCapacity := by
  intro i s
  have outcome := exec_completesOrAtCapacity i s
  exact ⟨outcome.ne_refused, fun f faults => (faults ▸ outcome).of_fault⟩

/-- Settles O8: with an empty queue the step takes its idle branch (R220). -/
theorem idleHoldsEveryField : Obligations.IdleHoldsEveryField := by
  intro s idle
  simp only [step, idle]

end Sys2Proof.Machine
end

section
/-! PROOFS for the family `70_reset_and_hazards.md`. -/

namespace Sys2Proof.Machine

/-- The attach input decodes whatever the parameters, since it is no word of a port. -/
theorem decodeInput_attach (p : Params) : decodeInput p .attach = .ok .attach := rfl

/-- Settles O11: the attach input decodes to the attach command, which writes only the field `observer`. -/
theorem attachOnlySetsObserver : Obligations.AttachOnlySetsObserver := by
  intro s rest hp
  calc step s = runCommand .attach (takeInput rest s) := step_of_decode hp (decodeInput_attach s.params)
    _ = .next (attachObserver (takeInput rest s)) := rfl
    _ = .next { s with pending := rest, observer := true } := rfl

end Sys2Proof.Machine
end
